-- ==== Sys2Proof/Word.lean ====
section
/-! DEFINITION. The value types of the engine: bytes, 16-bit words, 12-bit addresses and register numbers. -/

namespace Sys2Proof

/-- An 8-bit unsigned value: a V register, a RAM byte, a timer (spec 00 R9, R10). -/
abbrev Byte := BitVec 8

/-- A 16-bit unsigned value: an instruction word, I, PC, a stack entry (spec 00 R9). -/
abbrev Word := BitVec 16

/-- The 12-bit address immediate nnn (spec 30 R71). -/
abbrev Addr := BitVec 12

/-- The number of one of the sixteen general registers (spec 10 R20). -/
abbrev Reg := Fin 16

/-- V0, the offset register of `JP V0,addr` (spec 42 R121). -/
abbrev V0 : Reg := 0

/-- VF, the register that also receives flags (spec 10 R21). -/
abbrev VF : Reg := 15

end Sys2Proof
end

