-- ==== Sys2Proof/Machine/State.lean ====
section
/-! DEFINITION. The state of the engine as plain data, the reasons a machine can stop, and the state after reset
(spec 10). -/

namespace Sys2Proof.Machine

/-- The five fault causes of spec 60 R201. The engine TAKES a fault: `step` answers a next state in which `halted`
is set and the fault record names one of these (R202), so no step answers the outcome `fault` (log 1). Safe: once
halted nothing but `halted` and the record is fixed (R205), so no claim can lean on anything else. -/
inductive Fault where
  /-- Code 1, raised by `step` on a word that matches no row of the decode table (R77). Safe. -/
  | unknownOpcode
  /-- Code 2, raised by `CALL addr` when SP = 16 (R122). Safe. -/
  | stackOverflow
  /-- Code 3, raised by `RET` when SP = 0 (R123). Safe. -/
  | stackUnderflow
  /-- Code 4, raised by `DRW`, `LD B,Vx`, `LD [I],Vx` and `LD Vx,[I]` at the first access whose address `I + offset`
  is 4096 or above (R58, R204); carries that address (log 21). Safe. -/
  | memOutOfRange (addr : Nat)
  /-- Code 5, raised by `step` when PC is 4095 or above (R59). Safe. -/
  | fetchOutOfRange
  deriving DecidableEq, Repr, Inhabited

/-- Why the model gives no next state. -/
inductive Refusal where
  /-- An instruction that has no meaning yet; raised by `exec` only, and no arm of it is left. Safe. -/
  | notModelled (mnemonic : String)
  /-- `press(k)` with k above 15 is no operation of the block (R147, decision D15; log 24). Raised by the host
  operation `State.press` only, never by `step`. Safe. -/
  | keyOutOfRange
  /-- `reset(rom)` with more than 3584 bytes constructs no engine (R57, decision D10; log 24). Raised by the host
  operation `State.resetWith` only, never by `step`. Safe. -/
  | romTooLong
  deriving DecidableEq, Repr

/-- The fault record of spec 10 R30: the cause, the PC of the faulting step and its instruction word. -/
structure FaultRecord where
  cause : Fault
  faultPc : Word
  faultWord : Word
  deriving DecidableEq, Repr, Inhabited

/-- RAM as the bytes that differ from the reset contents (`Memory.initialByte`): addresses rising, no entry equal to
what its address reads as when it is unlisted (`Memory.wf`). -/
abbrev Memory := List Host.Cell

/-- The display, `disp[yy][xx]`: 32 rows of 64 one-bit cells, row 0 at the top, column 0 at the left (spec 10 R32). -/
abbrev Display := Vector (Vector Bool 64) 32

/-- Everything the spec gives the engine (spec 10 R20 to R32), and the model's own counter `free`. -/
structure State where
  /-- V0 to VF (R20). -/
  v : Vector Byte 16
  /-- The index register I (R22). -/
  i : Word
  /-- The program counter (R23). -/
  pc : Word
  /-- The sixteen return addresses (R24). -/
  stack : Vector Word 16
  /-- SP, 0 to 16, the number of live entries (R25). -/
  sp : Fin 17
  /-- The delay timer (R26). -/
  dt : Byte
  /-- The sound timer, which nothing reads (R27). -/
  st : Byte
  /-- The key latch: a key 0 to 15, or 0xFF for none (R28). -/
  key : Byte
  /-- The wait latch: the register that awaits a key, or `none` for the spec's 0xFF (R29; log 15). -/
  waitKey : Option Reg
  /-- Set by a fault, cleared only by `reset(rom)` (R30). -/
  halted : Bool
  /-- The fault record, meaningless while `halted` is false (R30, R203). -/
  record : FaultRecord
  /-- RAM (R31). -/
  ram : Memory
  /-- The display (R32). -/
  disp : Display
  /-- The model's own: how many free values have been used (log 3). -/
  free : Nat
  deriving DecidableEq, Repr, Inhabited

/-- The state after `reset(rom)` with an empty ROM (spec 10 R36, spec 70 R230). The record is a DESIGN CHOICE (log 5),
`free` is the model's (log 3), and the values of decisions D8 and D9 are logs 7 and 8. -/
def State.reset : State where
  v := Vector.replicate 16 0x00
  i := 0x0000
  pc := 0x0200
  stack := Vector.replicate 16 0x0000
  sp := 0
  dt := 0x00
  st := 0x00
  key := 0xFF
  waitKey := none
  halted := false
  record := ⟨.unknownOpcode, 0x0000, 0x0000⟩
  ram := []
  disp := Vector.replicate 32 (Vector.replicate 64 false)
  free := 0

end Sys2Proof.Machine
end

