-- ==== Sys2Proof/Config.lean ====
section
/-! DEFINITION. The parameters of the engine (spec 00 R9) and the values the spec leaves free, as constants with no body. -/

namespace Sys2Proof.Config

/-- RAM holds the addresses 0 to 4095 (R9, R31). -/
abbrev ramSize : Nat := 4096

/-- Where the ROM image is loaded and execution starts (R9, R57). -/
abbrev programBase : Nat := 0x200

/-- Where the font starts (R9, R56). -/
abbrev fontBase : Nat := 0x050

/-- The longest ROM image (R9, R57). -/
abbrev maxRomLength : Nat := 3584

/-- The parameter RANDOM_SOURCE (spec 45 R181, decision D18): the byte of the n-th draw. Nothing is known of it (log 4). -/
opaque randomByte : Nat → Byte

/-- What the rest of the state holds after a fault, for the state at the fault: unspecified (spec 60 R205, X1; log 2). -/
opaque afterFault : Machine.State → Machine.State

/-- The `fault_word` of a fetch fault, for the state at the fault: unspecified (spec 60 R201, X2; log 6). -/
opaque fetchFaultWord : Machine.State → Word

/-- The lines of the disassembler for a trailing odd byte, for the byte and its address: unspecified (spec 30 R80, spec 93 U2;
log 31). -/
opaque oddByteLines : Word → Byte → List (List Char)

end Sys2Proof.Config
end

