-- ==== Sys2Proof/Syntax.lean ====
section
/-! DEFINITION. The 34 instructions of the decode table (spec 30 R74, spec/opcode_table.json), one constructor a row. -/

namespace Sys2Proof

/-- One decoded instruction with the operand fields it uses (spec 30 R71 to R74). Register fields are register
numbers, `nn` and `nnn` are the immediates as bits, and the sprite height `n` is a count (spec 30 R73). -/
inductive Instr where
  /-- 00E0 `CLS` (R185) -/
  | cls
  /-- 00EE `RET` (R123) -/
  | ret
  /-- 1nnn `JP addr` (R120) -/
  | jp (nnn : Addr)
  /-- 2nnn `CALL addr` (R122) -/
  | call (nnn : Addr)
  /-- 3xnn `SE Vx,byte` (R124) -/
  | seByte (x : Reg) (nn : Byte)
  /-- 4xnn `SNE Vx,byte` (R125) -/
  | sneByte (x : Reg) (nn : Byte)
  /-- 5xy0 `SE Vx,Vy` (R126) -/
  | seReg (x y : Reg)
  /-- 6xnn `LD Vx,byte` (R100) -/
  | ldByte (x : Reg) (nn : Byte)
  /-- 7xnn `ADD Vx,byte` (R101) -/
  | addByte (x : Reg) (nn : Byte)
  /-- 8xy0 `LD Vx,Vy` (R102) -/
  | ldReg (x y : Reg)
  /-- 8xy1 `OR Vx,Vy` (R103) -/
  | orReg (x y : Reg)
  /-- 8xy2 `AND Vx,Vy` (R104) -/
  | andReg (x y : Reg)
  /-- 8xy3 `XOR Vx,Vy` (R105) -/
  | xorReg (x y : Reg)
  /-- 8xy4 `ADD Vx,Vy` (R106) -/
  | addReg (x y : Reg)
  /-- 8xy5 `SUB Vx,Vy` (R107) -/
  | subReg (x y : Reg)
  /-- 8xy6 `SHR Vx,Vy` (R108) -/
  | shrReg (x y : Reg)
  /-- 8xy7 `SUBN Vx,Vy` (R109) -/
  | subnReg (x y : Reg)
  /-- 8xyE `SHL Vx,Vy` (R110) -/
  | shlReg (x y : Reg)
  /-- 9xy0 `SNE Vx,Vy` (R127) -/
  | sneReg (x y : Reg)
  /-- Annn `LD I,addr` (R160) -/
  | ldIndex (nnn : Addr)
  /-- Bnnn `JP V0,addr` (R121) -/
  | jpV0 (nnn : Addr)
  /-- Cxnn `RND Vx,byte` (R180) -/
  | rnd (x : Reg) (nn : Byte)
  /-- Dxyn `DRW Vx,Vy,n` (R187) -/
  | drw (x y : Reg) (n : Nat)
  /-- Ex9E `SKP Vx` (R144) -/
  | skp (x : Reg)
  /-- ExA1 `SKNP Vx` (R145) -/
  | sknp (x : Reg)
  /-- Fx07 `LD Vx,DT` (R141) -/
  | ldFromDt (x : Reg)
  /-- Fx0A `LD Vx,K` (R143) -/
  | ldKey (x : Reg)
  /-- Fx15 `LD DT,Vx` (R140) -/
  | ldDt (x : Reg)
  /-- Fx18 `LD ST,Vx` (R142) -/
  | ldSt (x : Reg)
  /-- Fx1E `ADD I,Vx` (R161) -/
  | addIndex (x : Reg)
  /-- Fx29 `LD F,Vx` (R162) -/
  | ldFont (x : Reg)
  /-- Fx33 `LD B,Vx` (R163) -/
  | ldBcd (x : Reg)
  /-- Fx55 `LD [I],Vx` (R164) -/
  | storeRegs (x : Reg)
  /-- Fx65 `LD Vx,[I]` (R165) -/
  | loadRegs (x : Reg)
  deriving DecidableEq, Repr

end Sys2Proof
end

