-- ==== Sys2Proof/WellFormed.lean ====
section
/-! DEFINITION. Which instruction terms are instructions of the engine: every operand fits its field. -/

namespace Sys2Proof

/-- Every operand fits its field (spec 30 R71). The types of `x`, `y`, `nn` and `nnn` are exactly the ranges of
their fields, and all their values are legal (R73), so the one check is that the sprite height is in 0..15. -/
def Instr.wellFormed : Instr → Bool
  | .drw _ _ n => decide (n < 16)
  | .cls | .ret | .jp _ | .call _ | .seByte _ _ | .sneByte _ _ | .seReg _ _ | .ldByte _ _ | .addByte _ _
  | .ldReg _ _ | .orReg _ _ | .andReg _ _ | .xorReg _ _ | .addReg _ _ | .subReg _ _ | .shrReg _ _
  | .subnReg _ _ | .shlReg _ _ | .sneReg _ _ | .ldIndex _ | .jpV0 _ | .rnd _ _ | .skp _ | .sknp _
  | .ldFromDt _ | .ldKey _ | .ldDt _ | .ldSt _ | .addIndex _ | .ldFont _ | .ldBcd _ | .storeRegs _
  | .loadRegs _ => true

end Sys2Proof
end

