-- ==== Sys2Proof/Decode.lean ====
section
/-! DEFINITION. The decoder, total on words and on byte lists, and the encoder, both from the spec's tables
(spec 30 R70 to R78, R82). -/

namespace Sys2Proof

/-! ### Fields (spec 30 R71) -/

/-- `x = w[11:8]` (R71). -/
def fieldX (w : Word) : Reg := (w.extractLsb' 8 4).toFin

/-- `y = w[7:4]` (R71). -/
def fieldY (w : Word) : Reg := (w.extractLsb' 4 4).toFin

/-- `n = w[3:0]`, an unsigned count (R71, R73). -/
def fieldN (w : Word) : Nat := (w.extractLsb' 0 4).toNat

/-- `nn = w[7:0]` (R71). -/
def fieldNN (w : Word) : Byte := w.extractLsb' 0 8

/-- `nnn = w[11:0]` (R71). -/
def fieldNNN (w : Word) : Addr := w.extractLsb' 0 12

/-! ### The decode table (spec 30 R74) -/

/-- One row of the decode table: a word belongs to it iff `w AND mask = value`, and `build` reads its fields. -/
structure DecodeRow where
  mask : Word
  value : Word
  build : Word → Instr

/-- The row selects the word (R74). -/
def DecodeRow.selects (r : DecodeRow) (w : Word) : Bool := w &&& r.mask == r.value

/-- Rows 1 to 9 of R74. -/
def decodeRowsControl : List DecodeRow :=
  [⟨0xFFFF, 0x00E0, fun _ => .cls⟩,
   ⟨0xFFFF, 0x00EE, fun _ => .ret⟩,
   ⟨0xF000, 0x1000, fun w => .jp (fieldNNN w)⟩,
   ⟨0xF000, 0x2000, fun w => .call (fieldNNN w)⟩,
   ⟨0xF000, 0x3000, fun w => .seByte (fieldX w) (fieldNN w)⟩,
   ⟨0xF000, 0x4000, fun w => .sneByte (fieldX w) (fieldNN w)⟩,
   ⟨0xF00F, 0x5000, fun w => .seReg (fieldX w) (fieldY w)⟩,
   ⟨0xF000, 0x6000, fun w => .ldByte (fieldX w) (fieldNN w)⟩,
   ⟨0xF000, 0x7000, fun w => .addByte (fieldX w) (fieldNN w)⟩]

/-- Rows 10 to 18 of R74. -/
def decodeRowsLogic : List DecodeRow :=
  [⟨0xF00F, 0x8000, fun w => .ldReg (fieldX w) (fieldY w)⟩,
   ⟨0xF00F, 0x8001, fun w => .orReg (fieldX w) (fieldY w)⟩,
   ⟨0xF00F, 0x8002, fun w => .andReg (fieldX w) (fieldY w)⟩,
   ⟨0xF00F, 0x8003, fun w => .xorReg (fieldX w) (fieldY w)⟩,
   ⟨0xF00F, 0x8004, fun w => .addReg (fieldX w) (fieldY w)⟩,
   ⟨0xF00F, 0x8005, fun w => .subReg (fieldX w) (fieldY w)⟩,
   ⟨0xF00F, 0x8006, fun w => .shrReg (fieldX w) (fieldY w)⟩,
   ⟨0xF00F, 0x8007, fun w => .subnReg (fieldX w) (fieldY w)⟩,
   ⟨0xF00F, 0x800E, fun w => .shlReg (fieldX w) (fieldY w)⟩]

/-- Rows 19 to 25 of R74. -/
def decodeRowsMiddle : List DecodeRow :=
  [⟨0xF00F, 0x9000, fun w => .sneReg (fieldX w) (fieldY w)⟩,
   ⟨0xF000, 0xA000, fun w => .ldIndex (fieldNNN w)⟩,
   ⟨0xF000, 0xB000, fun w => .jpV0 (fieldNNN w)⟩,
   ⟨0xF000, 0xC000, fun w => .rnd (fieldX w) (fieldNN w)⟩,
   ⟨0xF000, 0xD000, fun w => .drw (fieldX w) (fieldY w) (fieldN w)⟩,
   ⟨0xF0FF, 0xE09E, fun w => .skp (fieldX w)⟩,
   ⟨0xF0FF, 0xE0A1, fun w => .sknp (fieldX w)⟩]

/-- Rows 26 to 34 of R74. -/
def decodeRowsTimersMemory : List DecodeRow :=
  [⟨0xF0FF, 0xF007, fun w => .ldFromDt (fieldX w)⟩,
   ⟨0xF0FF, 0xF00A, fun w => .ldKey (fieldX w)⟩,
   ⟨0xF0FF, 0xF015, fun w => .ldDt (fieldX w)⟩,
   ⟨0xF0FF, 0xF018, fun w => .ldSt (fieldX w)⟩,
   ⟨0xF0FF, 0xF01E, fun w => .addIndex (fieldX w)⟩,
   ⟨0xF0FF, 0xF029, fun w => .ldFont (fieldX w)⟩,
   ⟨0xF0FF, 0xF033, fun w => .ldBcd (fieldX w)⟩,
   ⟨0xF0FF, 0xF055, fun w => .storeRegs (fieldX w)⟩,
   ⟨0xF0FF, 0xF065, fun w => .loadRegs (fieldX w)⟩]

/-- The decode table in the source's order (R74). -/
def decodeTable : List DecodeRow :=
  decodeRowsControl ++ decodeRowsLogic ++ decodeRowsMiddle ++ decodeRowsTimersMemory

/-- Why bytes are no instruction. -/
inductive DecodeError where
  /-- The word matches no row of the table: the spec's verdict `UNKNOWN` (R77). -/
  | unknown (w : Word)
  /-- Fewer than the two bytes of an instruction were given (R70). -/
  | truncated
  deriving DecidableEq, Repr

/-- Decode one word: the first row that selects it, or `UNKNOWN` (R74, R76, R77). -/
def decodeWord (w : Word) : Except DecodeError Instr :=
  match decodeTable.find? (fun r => r.selects w) with
  | some r => .ok (r.build w)
  | none => .error (.unknown w)

/-- The big-endian word of two bytes, the one at the lower address first (spec 20 R51). -/
def wordOfBytes (hi lo : Byte) : Word := hi.setWidth 16 <<< 8 ||| lo.setWidth 16

/-- The high byte of a word, stored at the lower address (spec 20 R51). -/
def highByte (w : Word) : Byte := w.extractLsb' 8 8

/-- The low byte of a word (spec 20 R51). -/
def lowByte (w : Word) : Byte := w.extractLsb' 0 8

/-- Decode the instruction at the head of a byte list and give the bytes after it (R70: two bytes, big-endian). -/
def decodeBytes : List Byte → Except DecodeError (Instr × List Byte)
  | hi :: lo :: rest =>
    match decodeWord (wordOfBytes hi lo) with
    | .ok i => .ok (i, rest)
    | .error e => .error e
  | _ => .error .truncated

/-! ### The encoder: the six formats of spec 30 R72 -/

/-- A nibble placed at the given lowest bit of a word. -/
def nibbleAt (bit : Nat) (v : BitVec 4) : Word := v.setWidth 16 <<< bit

/-- The nibble of a register number. -/
def regNibble (r : Reg) : BitVec 4 := BitVec.ofFin r

/-- Format NNN. -/
def formNNN (op : BitVec 4) (nnn : Addr) : Word := nibbleAt 12 op ||| nnn.setWidth 16

/-- Format XNN. -/
def formXNN (op : BitVec 4) (x : Reg) (nn : Byte) : Word := nibbleAt 12 op ||| nibbleAt 8 (regNibble x) ||| nn.setWidth 16

/-- Format XY (also XYN, whose last nibble is the field n). -/
def formXY (op : BitVec 4) (x y : Reg) (sub : BitVec 4) : Word :=
  nibbleAt 12 op ||| nibbleAt 8 (regNibble x) ||| nibbleAt 4 (regNibble y) ||| nibbleAt 0 sub

/-- Format X. -/
def formX (op : BitVec 4) (x : Reg) (sub : Byte) : Word := nibbleAt 12 op ||| nibbleAt 8 (regNibble x) ||| sub.setWidth 16

/-- The word of an instruction: its fields placed by R71 under its row's value (R72, R74, R82). -/
def encode : Instr → Word
  | .cls => 0x00E0
  | .ret => 0x00EE
  | .jp nnn => formNNN 0x1 nnn
  | .call nnn => formNNN 0x2 nnn
  | .seByte x nn => formXNN 0x3 x nn
  | .sneByte x nn => formXNN 0x4 x nn
  | .seReg x y => formXY 0x5 x y 0x0
  | .ldByte x nn => formXNN 0x6 x nn
  | .addByte x nn => formXNN 0x7 x nn
  | .ldReg x y => formXY 0x8 x y 0x0
  | .orReg x y => formXY 0x8 x y 0x1
  | .andReg x y => formXY 0x8 x y 0x2
  | .xorReg x y => formXY 0x8 x y 0x3
  | .addReg x y => formXY 0x8 x y 0x4
  | .subReg x y => formXY 0x8 x y 0x5
  | .shrReg x y => formXY 0x8 x y 0x6
  | .subnReg x y => formXY 0x8 x y 0x7
  | .shlReg x y => formXY 0x8 x y 0xE
  | .sneReg x y => formXY 0x9 x y 0x0
  | .ldIndex nnn => formNNN 0xA nnn
  | .jpV0 nnn => formNNN 0xB nnn
  | .rnd x nn => formXNN 0xC x nn
  | .drw x y n => formXY 0xD x y (BitVec.ofNat 4 n)
  | .skp x => formX 0xE x 0x9E
  | .sknp x => formX 0xE x 0xA1
  | .ldFromDt x => formX 0xF x 0x07
  | .ldKey x => formX 0xF x 0x0A
  | .ldDt x => formX 0xF x 0x15
  | .ldSt x => formX 0xF x 0x18
  | .addIndex x => formX 0xF x 0x1E
  | .ldFont x => formX 0xF x 0x29
  | .ldBcd x => formX 0xF x 0x33
  | .storeRegs x => formX 0xF x 0x55
  | .loadRegs x => formX 0xF x 0x65

/-- The two bytes of an instruction as RAM holds them (spec 20 R51). -/
def encodeBytes (i : Instr) : List Byte := [highByte (encode i), lowByte (encode i)]

/-- The instruction the decoder reads from an opcode-table word of `nbits` bits (bits above them are 0): the
word's two bytes, the high one first, through `decodeBytes`. -/
def decodeTableWord (nbits w : Nat) : Option Instr :=
  let word : Word := BitVec.ofNat 16 (w % 2 ^ nbits)
  match decodeBytes [highByte word, lowByte word] with
  | .ok (i, _) => some i
  | .error _ => none

end Sys2Proof
end

