-- ==== Sys2Proof/Machine/Ops.lean ====
section
/-! DEFINITION. The named operations over memory, registers, stack, timers and the fetch; taking a fault; and the
reset that alone leaves the halted state. -/

namespace Sys2Proof.Machine

/-! ### RAM (spec 20) -/

/-- The built-in font, glyphs 0 to 7 (spec 20 R56; rows 1 to F are general knowledge, G1, PRESUMED, log 9). -/
def fontLow : List Byte :=
  [0xF0, 0x90, 0x90, 0x90, 0xF0,
   0x20, 0x60, 0x20, 0x20, 0x70,
   0xF0, 0x10, 0xF0, 0x80, 0xF0,
   0xF0, 0x10, 0xF0, 0x10, 0xF0,
   0x90, 0x90, 0xF0, 0x10, 0x10,
   0xF0, 0x80, 0xF0, 0x10, 0xF0,
   0xF0, 0x80, 0xF0, 0x90, 0xF0,
   0xF0, 0x10, 0x20, 0x40, 0x40]

/-- The built-in font, glyphs 8 to F (spec 20 R56, G1). -/
def fontHigh : List Byte :=
  [0xF0, 0x90, 0xF0, 0x90, 0xF0,
   0xF0, 0x90, 0xF0, 0x10, 0xF0,
   0xF0, 0x90, 0xF0, 0x90, 0x90,
   0xE0, 0x90, 0xE0, 0x90, 0xE0,
   0xF0, 0x80, 0x80, 0x80, 0xF0,
   0xE0, 0x90, 0x90, 0x90, 0xE0,
   0xF0, 0x80, 0xF0, 0x80, 0xF0,
   0xF0, 0x80, 0xF0, 0x80, 0x80]

/-- The 80 bytes of the font, five a glyph, top row first (spec 20 R56). -/
def font : List Byte := fontLow ++ fontHigh

/-- What an address reads as when memory does not list it: the contents after a reset with an empty ROM, that is the
font at 0x050 to 0x09F and 0x00 elsewhere (spec 20 R55, spec 10 R36; decision D9, log 8). -/
def Memory.initialByte (a : Nat) : Byte :=
  if Config.fontBase ≤ a then font.getD (a - Config.fontBase) 0x00 else 0x00

/-- The byte at an address. -/
def Memory.read : Memory → Nat → Byte
  | [], a => Memory.initialByte a
  | (b, v) :: m, a => if b = a then v else Memory.read m a

/-- Write one byte, keeping the canonical form: the new entry stands in order and alone, and a byte equal to what the
address reads as when it is unlisted is not listed. -/
def Memory.write : Memory → Nat → Byte → Memory
  | [], a, v => if v = Memory.initialByte a then [] else [(a, v)]
  | (b, u) :: m, a, v =>
    if b < a then (b, u) :: Memory.write m a v
    else
      let others := ((b, u) :: m).filter (fun c => c.1 != a)
      if v = Memory.initialByte a then others else (a, v) :: others

/-- The canonical form of memory: addresses strictly rising and inside RAM, no entry equal to what its address reads as
when it is unlisted. -/
abbrev Memory.wf (m : Memory) : Prop :=
  m.Pairwise (fun c d => c.1 < d.1) ∧ ∀ c ∈ m, c.1 < Config.ramSize ∧ c.2 ≠ Memory.initialByte c.1

/-- Any list of cells put into canonical form; a list that has it is unchanged. -/
def Memory.normalise (cells : Memory) : Memory :=
  cells.foldl (fun m c => if c.1 < Config.ramSize then m.write c.1 c.2 else m) []

/-- Write consecutive bytes from an address up, with no bounds check (for the ROM loader, which has checked). -/
def Memory.load (m : Memory) (a : Nat) : List Byte → Memory
  | [] => m
  | b :: bs => Memory.load (m.write a b) (a + 1) bs

/-- The primitive `MemRead(addr, 1)` (spec 00 R11, spec 20 R58): the byte, or the out-of-range address. -/
def memRead (a : Nat) (m : Memory) : Except Nat Byte :=
  if a < Config.ramSize then .ok (m.read a) else .error a

/-- The primitive `MemWrite(addr, 1, v)` (spec 00 R11, spec 20 R58): the new memory, or the out-of-range address. -/
def memWrite (a : Nat) (v : Byte) (m : Memory) : Except Nat Memory :=
  if a < Config.ramSize then .ok (m.write a v) else .error a

/-- `n` reads in rising address order; the first address out of range stops them (R54, R204). -/
def memReadBlock (a : Nat) (m : Memory) : Nat → Except Nat (List Byte)
  | 0 => .ok []
  | n + 1 =>
    match memRead a m with
    | .error e => .error e
    | .ok b =>
      match memReadBlock (a + 1) m n with
      | .error e => .error e
      | .ok bs => .ok (b :: bs)

/-- Writes in rising address order; the first address out of range stops them (R54, R204). -/
def memWriteBlock (a : Nat) : List Byte → Memory → Except Nat Memory
  | [], m => .ok m
  | b :: bs, m =>
    match memWrite a b m with
    | .error e => .error e
    | .ok m' => memWriteBlock (a + 1) bs m'

/-- The byte RAM holds at an address, for statements and for the host's reads. -/
def State.readByte (s : State) (a : Nat) : Byte := s.ram.read a

/-- The same state with another RAM. -/
def State.setRam (s : State) (m : Memory) : State := { s with ram := m }

/-! ### Registers (spec 10) -/

/-- `V[r]` (R20). -/
def State.reg (s : State) (r : Reg) : Byte := s.v[r.val]

/-- `V[r] <- b` (R20). -/
def State.setReg (s : State) (r : Reg) (b : Byte) : State := { s with v := s.v.set r.val b }

/-- `V[0], V[1], ... <- bytes`, from the register `r` up; past VF nothing is written (R165). -/
def State.setRegs (s : State) (r : Nat) : List Byte → State
  | [] => s
  | b :: bs => State.setRegs (if h : r < 16 then s.setReg ⟨r, h⟩ b else s) (r + 1) bs

/-- `I <- w` (R22). -/
def State.setIndex (s : State) (w : Word) : State := { s with i := w }

/-- `pc <- target` (R23, spec 00 R11). -/
def State.setPc (s : State) (target : Word) : State := { s with pc := target }

/-- `DT <- b` (R26). -/
def State.setDt (s : State) (b : Byte) : State := { s with dt := b }

/-- `ST <- b` (R27). -/
def State.setSt (s : State) (b : Byte) : State := { s with st := b }

/-- `key <- b` (R28). -/
def State.setKey (s : State) (b : Byte) : State := { s with key := b }

/-- `wait_key <- r`, or `wait_key <- 0xFF` for `none` (R29). -/
def State.setWaitKey (s : State) (r : Option Reg) : State := { s with waitKey := r }

/-- The wait latch as the spec's 8 bits: the register number, or 0xFF (R29; log 15). -/
def State.waitKeyByte (s : State) : Byte :=
  match s.waitKey with
  | some r => BitVec.ofNat 8 r.val
  | none => 0xFF

/-- Replace the display (R32). -/
def State.setDisp (s : State) (d : Display) : State := { s with disp := d }

/-- A display's cell by column and row; a position outside the display is off (R32). -/
def pixelOf (d : Display) (xx yy : Nat) : Bool :=
  if h : xx < 64 ∧ yy < 32 then (d[yy]'h.2)[xx]'h.1 else false

/-- The cell of the state's display at a column and a row (R32). -/
def State.pixel (s : State) (xx yy : Nat) : Bool := pixelOf s.disp xx yy

/-- `pc <- pc + 2` (spec 40 R94; log 13). -/
def State.advance (s : State) : State := s.setPc (s.pc + 2)

/-- `pc <- pc + 4` when the condition holds, else `pc <- pc + 2` (spec 40 R94). -/
def State.skipIf (s : State) (taken : Bool) : State := s.setPc (if taken then s.pc + 4 else s.pc + 2)

/-- Push a return address on a stack that is not full: `stack[SP] <- w; SP <- SP + 1` (R24, R25). -/
def State.push (s : State) (w : Word) (room : s.sp.val < 16) : State :=
  { s with stack := s.stack.set s.sp.val w, sp := ⟨s.sp.val + 1, by omega⟩ }

/-- Drop the newest entry of a stack that is not empty: `SP <- SP - 1` (R25). -/
def State.pop (s : State) : State := { s with sp := ⟨s.sp.val - 1, by omega⟩ }

/-- The newest live entry, `stack[SP - 1]` (R25). -/
def State.top (s : State) (live : 0 < s.sp.val) : Word := s.stack[s.sp.val - 1]

/-! ### The random source (spec 45 R181) -/

/-- `random_byte()`: the next free byte. -/
def State.nextRandom (s : State) : Byte := Config.randomByte s.free

/-- One free value has been used. -/
def State.useFree (s : State) : State := { s with free := s.free + 1 }

/-! ### The step frame (spec 40) -/

/-- One timer's automatic decrement: it stops at 0 (R93). -/
def countDown (t : Byte) : Byte := if t = 0 then 0 else t - 1

/-- Step 3 of R91: both timers count down. -/
def State.tickTimers (s : State) : State := { s with dt := countDown s.dt, st := countDown s.st }

/-- Step 1 of R91: the big-endian word at PC, or nothing when `pc >= 4095` (spec 20 R51, R59). -/
def State.fetch (s : State) : Option Word :=
  if s.pc.toNat + 1 < Config.ramSize then
    some (wordOfBytes (s.readByte s.pc.toNat) (s.readByte (s.pc.toNat + 1)))
  else none

/-! ### Taking a fault, and leaving the halted state (spec 60) -/

/-- The numeric code of a cause (R201, decision D11). -/
def Fault.code : Fault → Nat
  | .unknownOpcode => 1
  | .stackOverflow => 2
  | .stackUnderflow => 3
  | .memOutOfRange _ => 4
  | .fetchOutOfRange => 5

/-- `raise F(info)` in the step at `s.pc` for the instruction word `w` (R202): `halted <- 1` and the record is written.
Everything else is unspecified from then on (R205): it is what the bodyless `Config.afterFault` gives, with RAM put into
canonical form (log 2). -/
def raise (cause : Fault) (w : Word) (s : State) : State :=
  { Config.afterFault s with
    ram := Memory.normalise (Config.afterFault s).ram
    halted := true
    record := ⟨cause, s.pc, w⟩
    free := s.free + 1 }

/-- The outcome of an instruction that accesses RAM: its next state, or the fault `MemOutOfRange` at the first address
out of range, taken from the state `s` the instruction started in (R58, R201, R204). -/
def orMemFault (w : Word) (s : State) : Except Nat State → Host.Outcome State Fault Refusal
  | .ok t => .next t
  | .error a => .next (raise (.memOutOfRange a) w s)

/-- `reset(rom)` (spec 70 R230), the one way out of the halted state (R206; there is no trap return): everything at its
reset value and the ROM at 0x200. A ROM of more than 3584 bytes is refused (R57). The counter of free values goes on, so
that draws after the reset are not those before it (R181: the random source is not reseeded; log 3). -/
def State.resetWith (rom : List Byte) (s : State) : Host.Outcome State Fault Refusal :=
  if Config.maxRomLength < rom.length then .refused .romTooLong
  else .next { State.reset with ram := Memory.load [] Config.programBase rom, free := s.free }

end Sys2Proof.Machine
end

