-- ==== Sys2Proof/Machine/Flags.lean ====
section
/-! DEFINITION. Every flag the engine computes into VF (spec 10 R21, spec 41 R111). -/

namespace Sys2Proof.Machine

/-- A flag as VF holds it: 1 or 0 (spec 10 R21). -/
def flagByte (f : Bool) : Byte := if f then 1 else 0

/-- `ADD Vx,Vy`: the 8-bit sum overflows (R106). -/
def addCarry (a b : Byte) : Bool := decide (255 < a.toNat + b.toNat)

/-- `SUB`, `SUBN`: no borrow, the minuend is not below the subtrahend (R107, R109, R111). -/
def notBorrow (minuend subtrahend : Byte) : Bool := decide (subtrahend.toNat ≤ minuend.toNat)

/-- `SHR`: bit 0 of the source (R108). -/
def shiftOutRight (b : Byte) : Bool := b.getLsbD 0

/-- `SHL`: bit 7 of the source (R110). -/
def shiftOutLeft (b : Byte) : Bool := b.getLsbD 7

/-- `ADD I,Vx`: the 16-bit sum overflows (spec 44 R161). -/
def indexCarry (i : Word) (b : Byte) : Bool := decide (65535 < i.toNat + b.toNat)

/-- The order of R112: VF receives the flag first, then the result is computed from the registers as they then stand and
written to its destination (decision D4, log 11). -/
def State.flagThenReg (s : State) (flag : Bool) (dest : Reg) (result : State → Byte) : State :=
  let s' := s.setReg VF (flagByte flag)
  s'.setReg dest (result s')

end Sys2Proof.Machine
end

