-- ==== Sys2Proof/Machine/Operands.lean ====
section
/-! DEFINITION. The operand forms: immediates widened to a register, the addresses an instruction computes, and the
registers a block move names (spec 30 R73, spec 44 R166). -/

namespace Sys2Proof.Machine

/-- `zext_16(nnn)` (spec 30 R73). -/
def addrWord (nnn : Addr) : Word := nnn.setWidth 16

/-- The target `nnn + V0`, not reduced to 12 bits (spec 42 R121). -/
def jumpTarget (nnn : Addr) (v0 : Byte) : Word := nnn.setWidth 16 + v0.setWidth 16

/-- The effective address `I + k` on unbounded naturals (spec 44 R166). -/
def State.indexed (s : State) (k : Nat) : Nat := s.i.toNat + k

/-- `(I + Vx) mod 65536`, Vx zero-extended (spec 44 R161). -/
def indexSum (i : Word) (b : Byte) : Word := i + b.setWidth 16

/-- The address of the glyph for the low digit of a byte, `0x050 + (b AND 0x0F) * 5` (spec 44 R162). -/
def glyphAddr (b : Byte) : Word := BitVec.ofNat 16 (Config.fontBase + (b &&& 0x0F).toNat * 5)

/-- The values of V0 to V(n-1) (spec 44 R164). -/
def State.firstRegs (s : State) (n : Nat) : List Byte := s.v.toList.take n

/-- The decimal digit of a byte after `div` by the given power of ten (spec 44 R163). -/
def decimalDigit (b : Byte) (power : Nat) : Byte := BitVec.ofNat 8 (b.toNat / power % 10)

end Sys2Proof.Machine
end

