-- ==== Sys2Proof/Machine/ArithLogic.lean ====
section
/-! DEFINITION. Arithmetic and logic on the V registers (spec 41). No instruction here can fault. -/

namespace Sys2Proof.Machine

/-- `LD Vx,byte` (R100). -/
def execLdByte (x : Reg) (nn : Byte) (s : State) : Host.Outcome State Fault Refusal :=
  .next (s.setReg x nn).advance

/-- `ADD Vx,byte`: no flag (R101). -/
def execAddByte (x : Reg) (nn : Byte) (s : State) : Host.Outcome State Fault Refusal :=
  .next (s.setReg x (s.reg x + nn)).advance

/-- `LD Vx,Vy` (R102). -/
def execLdReg (x y : Reg) (s : State) : Host.Outcome State Fault Refusal :=
  .next (s.setReg x (s.reg y)).advance

/-- `OR Vx,Vy`: VF unchanged (R103). -/
def execOrReg (x y : Reg) (s : State) : Host.Outcome State Fault Refusal :=
  .next (s.setReg x (s.reg x ||| s.reg y)).advance

/-- `AND Vx,Vy`: VF unchanged (R104). -/
def execAndReg (x y : Reg) (s : State) : Host.Outcome State Fault Refusal :=
  .next (s.setReg x (s.reg x &&& s.reg y)).advance

/-- `XOR Vx,Vy`: VF unchanged (R105). -/
def execXorReg (x y : Reg) (s : State) : Host.Outcome State Fault Refusal :=
  .next (s.setReg x (s.reg x ^^^ s.reg y)).advance

/-- `ADD Vx,Vy`: the carry to VF, then the sum to Vx (R106, R112). -/
def execAddReg (x y : Reg) (s : State) : Host.Outcome State Fault Refusal :=
  .next (s.flagThenReg (addCarry (s.reg x) (s.reg y)) x (fun t => t.reg x + t.reg y)).advance

/-- `SUB Vx,Vy`: the not-borrow to VF, then `Vx - Vy` to Vx (R107, R112). -/
def execSubReg (x y : Reg) (s : State) : Host.Outcome State Fault Refusal :=
  .next (s.flagThenReg (notBorrow (s.reg x) (s.reg y)) x (fun t => t.reg x - t.reg y)).advance

/-- `SHR Vx,Vy`: bit 0 of Vy to VF, then `Vy >> 1` to Vx (R108, R112). -/
def execShrReg (x y : Reg) (s : State) : Host.Outcome State Fault Refusal :=
  .next (s.flagThenReg (shiftOutRight (s.reg y)) x (fun t => t.reg y >>> 1)).advance

/-- `SUBN Vx,Vy`: the not-borrow of `Vy - Vx` to VF, then the difference to **Vy** (R109, R112). -/
def execSubnReg (x y : Reg) (s : State) : Host.Outcome State Fault Refusal :=
  .next (s.flagThenReg (notBorrow (s.reg y) (s.reg x)) y (fun t => t.reg y - t.reg x)).advance

/-- `SHL Vx,Vy`: bit 7 of Vy to VF, then `Vy << 1` to Vx (R110, R112). -/
def execShlReg (x y : Reg) (s : State) : Host.Outcome State Fault Refusal :=
  .next (s.flagThenReg (shiftOutLeft (s.reg y)) x (fun t => t.reg y <<< 1)).advance

end Sys2Proof.Machine
end

