-- ==== Sys2Proof/Machine/ControlFlow.lean ====
section
/-! DEFINITION. Jumps, call and return, skips (spec 42). A target is never checked when it is formed (R128). -/

namespace Sys2Proof.Machine

/-- `JP addr` (R120). -/
def execJp (nnn : Addr) (s : State) : Host.Outcome State Fault Refusal :=
  .next (s.setPc (addrWord nnn))

/-- `JP V0,addr` (R121). -/
def execJpV0 (nnn : Addr) (s : State) : Host.Outcome State Fault Refusal :=
  .next (s.setPc (jumpTarget nnn (s.reg V0)))

/-- `CALL addr`: StackOverflow when SP = 16, else push `pc + 2` and jump (R122). -/
def execCall (nnn : Addr) (s : State) : Host.Outcome State Fault Refusal :=
  if room : s.sp.val < 16 then .next ((s.push (s.pc + 2) room).setPc (addrWord nnn))
  else .next (raise .stackOverflow (encode (.call nnn)) s)

/-- `RET`: StackUnderflow when SP = 0, else pop into PC (R123). -/
def execRet (s : State) : Host.Outcome State Fault Refusal :=
  if live : 0 < s.sp.val then .next (s.pop.setPc (s.top live))
  else .next (raise .stackUnderflow (encode .ret) s)

/-- `SE Vx,byte`: skip if equal (R124; the condition is general knowledge, G2, PRESUMED, log 10). -/
def execSeByte (x : Reg) (nn : Byte) (s : State) : Host.Outcome State Fault Refusal :=
  .next (s.skipIf (s.reg x == nn))

/-- `SNE Vx,byte`: skip if different (R125; G2, PRESUMED, log 10). -/
def execSneByte (x : Reg) (nn : Byte) (s : State) : Host.Outcome State Fault Refusal :=
  .next (s.skipIf (s.reg x != nn))

/-- `SE Vx,Vy`: skip if equal (R126; G2, PRESUMED, log 10). -/
def execSeReg (x y : Reg) (s : State) : Host.Outcome State Fault Refusal :=
  .next (s.skipIf (s.reg x == s.reg y))

/-- `SNE Vx,Vy`: skip if different (R127; G2, PRESUMED, log 10). -/
def execSneReg (x y : Reg) (s : State) : Host.Outcome State Fault Refusal :=
  .next (s.skipIf (s.reg x != s.reg y))

end Sys2Proof.Machine
end

