-- ==== Sys2Proof/Machine/Display.lean ====
section
/-! DEFINITION. `CLS`, the blit primitive and `DRW` (spec 46). -/

namespace Sys2Proof.Machine

/-- The display with every cell off (R185). -/
def blankDisplay : Display := Vector.replicate 32 (Vector.replicate 64 false)

/-- `CLS` (R185). -/
def execCls (s : State) : Host.Outcome State Fault Refusal :=
  .next (s.setDisp blankDisplay).advance

/-- One pixel of the blit: inside the display the cell is XORed with the sprite bit, and a cell that was on under a bit
of 1 is a collision; outside it the pixel is clipped (R186, R188). The coordinates are naturals (decision D17, log 26). -/
def plot (tx ty : Nat) (bit : Bool) (a : Display × Bool) : Display × Bool :=
  if h : tx < 64 ∧ ty < 32 then
    let old := (a.1[ty]'h.2)[tx]'h.1
    (a.1.set ty ((a.1[ty]'h.2).set tx (old ^^ bit) h.1) h.2, a.2 || (old && bit))
  else a

/-- The sprite bit of column c in a row byte, bit 7 leftmost (R186). -/
def spriteBit (row : Byte) (c : Nat) : Bool := row.getLsbD (7 - c)

/-- The eight pixels of one sprite row, left to right (R186). -/
def drawRow (row : Byte) (ox ty : Nat) (a : Display × Bool) : Display × Bool :=
  (List.range 8).foldl (fun a c => plot (ox + c) ty (spriteBit row c) a) a

/-- The rows of a sprite, top to bottom (R186). -/
def drawRows : List Byte → Nat → Nat → Display × Bool → Display × Bool
  | [], _, _, a => a
  | row :: rows, ox, ty, a => drawRows rows ox (ty + 1) (drawRow row ox ty a)

/-- `draw(sprite, ox, oy)`: the display after it and the collision flag (R186). -/
def draw (sprite : List Byte) (ox oy : Nat) (d : Display) : Display × Bool :=
  drawRows sprite ox oy (d, false)

/-- `DRW Vx,Vy,n`: n sprite bytes from I, drawn at the coordinates read before VF is written; then VF is the collision
flag (R187). -/
def execDrw (x y : Reg) (n : Nat) (s : State) : Host.Outcome State Fault Refusal :=
  orMemFault (encode (.drw x y n)) s
    ((memReadBlock (s.indexed 0) s.ram n).map (fun sprite =>
      let drawn := draw sprite (s.reg x).toNat (s.reg y).toNat s.disp
      ((s.setDisp drawn.1).setReg VF (flagByte drawn.2)).advance))

end Sys2Proof.Machine
end

