-- ==== Sys2Proof/Machine/IndexMemory.lean ====
section
/-! DEFINITION. The index register, the decimal conversion and the register block moves (spec 44). No access changes I
(R166). -/

namespace Sys2Proof.Machine

/-- `LD I,addr` (R160). -/
def execLdIndex (nnn : Addr) (s : State) : Host.Outcome State Fault Refusal :=
  .next (s.setIndex (addrWord nnn)).advance

/-- `ADD I,Vx`: the carry of the 16-bit sum to VF, then the sum to I, with Vx read again (R161; log 11). -/
def execAddIndex (x : Reg) (s : State) : Host.Outcome State Fault Refusal :=
  let s' := s.setReg VF (flagByte (indexCarry s.i (s.reg x)))
  .next (s'.setIndex (indexSum s'.i (s'.reg x))).advance

/-- `LD F,Vx` (R162). -/
def execLdFont (x : Reg) (s : State) : Host.Outcome State Fault Refusal :=
  .next (s.setIndex (glyphAddr (s.reg x))).advance

/-- The three stores of `LD B,Vx` in the spec's order: units, tens, hundreds (R163). -/
def bcdStores (s : State) (b : Byte) : Except Nat Memory :=
  match memWrite (s.indexed 2) (decimalDigit b 1) s.ram with
  | .error a => .error a
  | .ok m =>
    match memWrite (s.indexed 1) (decimalDigit b 10) m with
    | .error a => .error a
    | .ok m' => memWrite (s.indexed 0) (decimalDigit b 100) m'

/-- `LD B,Vx`: the decimal digits of Vx at I, I+1, I+2 (R163). -/
def execLdBcd (x : Reg) (s : State) : Host.Outcome State Fault Refusal :=
  orMemFault (encode (.ldBcd x)) s ((bcdStores s (s.reg x)).map (fun m => (s.setRam m).advance))

/-- `LD [I],Vx`: store V0 to V(x-1) from I up (R164). The values are read before the first store, which changes no
register (log 30). -/
def execStoreRegs (x : Reg) (s : State) : Host.Outcome State Fault Refusal :=
  orMemFault (encode (.storeRegs x)) s
    ((memWriteBlock (s.indexed 0) (s.firstRegs x.val) s.ram).map (fun m => (s.setRam m).advance))

/-- `LD Vx,[I]`: load V0 to V(x-1) from I up (R165). The bytes are read before the first register is written, which
changes neither I nor RAM (log 30). -/
def execLoadRegs (x : Reg) (s : State) : Host.Outcome State Fault Refusal :=
  orMemFault (encode (.loadRegs x)) s
    ((memReadBlock (s.indexed 0) s.ram x.val).map (fun bs => (s.setRegs 0 bs).advance))

end Sys2Proof.Machine
end

