-- ==== Sys2Proof/Machine/Random.lean ====
section
/-! DEFINITION. `RND Vx,byte` (spec 45). -/

namespace Sys2Proof.Machine

/-- `RND Vx,byte`: one fresh byte of the random source AND nn (R180, R181; log 4). -/
def execRnd (x : Reg) (nn : Byte) (s : State) : Host.Outcome State Fault Refusal :=
  .next (s.useFree.setReg x (s.nextRandom &&& nn)).advance

end Sys2Proof.Machine
end

