-- ==== Sys2Proof/Machine/TimersKeypad.lean ====
section
/-! DEFINITION. The timer instructions, the wait for a key and the key-conditional skips (spec 43). A meaning runs after
the step's timer decrement (R93). -/

namespace Sys2Proof.Machine

/-- `LD Vx,DT`: DT as this step has already decremented it (R141). -/
def execLdFromDt (x : Reg) (s : State) : Host.Outcome State Fault Refusal :=
  .next (s.setReg x s.dt).advance

/-- `LD Vx,K`: arm the wait latch and complete; Vx is written later by `press` (R143). -/
def execLdKey (x : Reg) (s : State) : Host.Outcome State Fault Refusal :=
  .next (s.setWaitKey (some x)).advance

/-- `LD DT,Vx` (R140). -/
def execLdDt (x : Reg) (s : State) : Host.Outcome State Fault Refusal :=
  .next (s.setDt (s.reg x)).advance

/-- `LD ST,Vx`: the hidden register (R142, R27; log 23). -/
def execLdSt (x : Reg) (s : State) : Host.Outcome State Fault Refusal :=
  .next (s.setSt (s.reg x)).advance

/-- `SKP Vx`: skip if all 8 bits of Vx equal the key latch (R144). -/
def execSkp (x : Reg) (s : State) : Host.Outcome State Fault Refusal :=
  .next (s.skipIf (s.reg x == s.key))

/-- `SKNP Vx`: skip if Vx differs from the key latch (R145). -/
def execSknp (x : Reg) (s : State) : Host.Outcome State Fault Refusal :=
  .next (s.skipIf (s.reg x != s.key))

end Sys2Proof.Machine
end

