-- ==== Sys2Proof/Machine/Step.lean ====
section
/-! DEFINITION. One `step()` of the engine (spec 40 R91), and the placing of an instruction where the next step fetches. -/

namespace Sys2Proof.Machine

/-- `step()` (R91): nothing on a halted engine (R95), else fetch, decode, timer decrement, and the instruction's meaning
or one of the two faults a step itself raises. It does not look at the wait latch (R238; log 19). -/
def step (s : State) : Host.Outcome State Fault Refusal :=
  if s.halted then .next s
  else
    match s.fetch with
    | none => .next (raise .fetchOutOfRange (Config.fetchFaultWord s) s)
    | some w =>
      match decodeWord w with
      | .ok i => exec i s.tickTimers
      | .error _ => .next (raise .unknownOpcode w s.tickTimers)

/-- The state with an opcode-table word of `nbits` bits stored at PC, high byte first, so that the next step runs it. A
halted engine is set running and a PC that cannot be fetched from is set to 0x200, since the fetch needs both (log 20);
otherwise only the two bytes change. -/
def State.withFetchWord (s : State) (nbits w : Nat) : State :=
  let word : Word := BitVec.ofNat 16 (w % 2 ^ nbits)
  let at' : Word := if s.pc.toNat + 1 < Config.ramSize then s.pc else 0x0200
  { s with
    halted := false
    pc := at'
    ram := (s.ram.write at'.toNat (highByte word)).write (at'.toNat + 1) (lowByte word) }

end Sys2Proof.Machine
end

