-- ==== Sys2Proof/Machine/Text.lean ====
section
/-! DEFINITION. The assembler text of an instruction and the disassembler's lines (spec 30 R79, R80), as lists of
characters. They are software outside the block (spec 00 R3) and no step uses them; the spelling of 29 mnemonics is the
spec's decision D20 (log 28). -/

namespace Sys2Proof.Machine

/-- A lower-case hexadecimal digit (R79). -/
def hexLower (d : BitVec 4) : Char :=
  ['0', '1', '2', '3', '4', '5', '6', '7', '8', '9', 'a', 'b', 'c', 'd', 'e', 'f'].getD d.toNat '?'

/-- An upper-case hexadecimal digit (R79). -/
def hexUpper (d : BitVec 4) : Char :=
  ['0', '1', '2', '3', '4', '5', '6', '7', '8', '9', 'A', 'B', 'C', 'D', 'E', 'F'].getD d.toNat '?'

/-- A register: `V` and one upper-case digit (R79). -/
def regText (r : Reg) : List Char := ['V', hexUpper (BitVec.ofFin r)]

/-- A byte: `0x` and two lower-case digits (R79). -/
def byteText (b : Byte) : List Char := ['0', 'x', hexLower (b.extractLsb' 4 4), hexLower (b.extractLsb' 0 4)]

/-- An address: `0x` and three lower-case digits (R79). -/
def addrText (a : Addr) : List Char :=
  ['0', 'x', hexLower (a.extractLsb' 8 4), hexLower (a.extractLsb' 4 4), hexLower (a.extractLsb' 0 4)]

/-- A 16-bit number: `0x` and four lower-case digits (R80). -/
def wordText (w : Word) : List Char :=
  ['0', 'x', hexLower (w.extractLsb' 12 4), hexLower (w.extractLsb' 8 4), hexLower (w.extractLsb' 4 4),
    hexLower (w.extractLsb' 0 4)]

/-- A sprite height in decimal, at most two digits (R79). -/
def heightText (n : Nat) : List Char :=
  if n < 10 then [hexLower (BitVec.ofNat 4 n)]
  else [hexLower (BitVec.ofNat 4 (n / 10)), hexLower (BitVec.ofNat 4 (n % 10))]

/-- A mnemonic and its operands: one space, then the operands separated by a comma and a space (R79). -/
def asmText (mnemonic : List Char) (operands : List (List Char)) : List Char :=
  match operands with
  | [] => mnemonic
  | o :: os => mnemonic ++ ' ' :: o ++ (os.map (fun p => ',' :: ' ' :: p)).flatten

/-- The text of an instruction (R79). -/
def instrText : Instr → List Char
  | .cls => asmText "CLS".toList []
  | .ret => asmText "RET".toList []
  | .jp nnn => asmText "JP".toList [addrText nnn]
  | .call nnn => asmText "CALL".toList [addrText nnn]
  | .seByte x nn => asmText "SE".toList [regText x, byteText nn]
  | .sneByte x nn => asmText "SNE".toList [regText x, byteText nn]
  | .seReg x y => asmText "SE".toList [regText x, regText y]
  | .ldByte x nn => asmText "LD".toList [regText x, byteText nn]
  | .addByte x nn => asmText "ADD".toList [regText x, byteText nn]
  | .ldReg x y => asmText "LD".toList [regText x, regText y]
  | .orReg x y => asmText "OR".toList [regText x, regText y]
  | .andReg x y => asmText "AND".toList [regText x, regText y]
  | .xorReg x y => asmText "XOR".toList [regText x, regText y]
  | .addReg x y => asmText "ADD".toList [regText x, regText y]
  | .subReg x y => asmText "SUB".toList [regText x, regText y]
  | .shrReg x y => asmText "SHR".toList [regText x, regText y]
  | .subnReg x y => asmText "SUBN".toList [regText x, regText y]
  | .shlReg x y => asmText "SHL".toList [regText x, regText y]
  | .sneReg x y => asmText "SNE".toList [regText x, regText y]
  | .ldIndex nnn => asmText "LD".toList [['I'], addrText nnn]
  | .jpV0 nnn => asmText "JP".toList [regText V0, addrText nnn]
  | .rnd x nn => asmText "RND".toList [regText x, byteText nn]
  | .drw x y n => asmText "DRW".toList [regText x, regText y, heightText n]
  | .skp x => asmText "SKP".toList [regText x]
  | .sknp x => asmText "SKNP".toList [regText x]
  | .ldFromDt x => asmText "LD".toList [regText x, "DT".toList]
  | .ldKey x => asmText "LD".toList [regText x, ['K']]
  | .ldDt x => asmText "LD".toList ["DT".toList, regText x]
  | .ldSt x => asmText "LD".toList ["ST".toList, regText x]
  | .addIndex x => asmText "ADD".toList [['I'], regText x]
  | .ldFont x => asmText "LD".toList [['F'], regText x]
  | .ldBcd x => asmText "LD".toList [['B'], regText x]
  | .storeRegs x => asmText "LD".toList ["[I]".toList, regText x]
  | .loadRegs x => asmText "LD".toList [regText x, "[I]".toList]

/-- The text of a word: its instruction's, or `UNKNOWN` (R77, R79). -/
def textOfWord (w : Word) : List Char :=
  match decodeWord w with
  | .ok i => instrText i
  | .error _ => "UNKNOWN".toList

/-- One disassembly line: address, word, text, separated by one space (R80). -/
def disassemblyLine (addr w : Word) : List Char := wordText addr ++ ' ' :: wordText w ++ ' ' :: textOfWord w

/-- The lines of a ROM image from the given address: consecutive big-endian byte pairs (R80). What a trailing odd byte
gives is unspecified (R80, spec 93 U2); that it gives free lines behind those of the pairs is the model's DESIGN CHOICE
(log 31, safe). -/
def disassemble (addr : Word) : List Byte → List (List Char)
  | hi :: lo :: rest => disassemblyLine addr (wordOfBytes hi lo) :: disassemble (addr + 2) rest
  | [b] => Config.oddByteLines addr b
  | [] => []

end Sys2Proof.Machine
end

