-- ==== Sys2Proof/Machine/HostInterface.lean ====
section
/-! DEFINITION. The host operations beside `step()` (spec 00 R6, spec 43 section 4, spec 46 R191, spec 60 R203), each one
atomic transition or one pure read (R7). `reset(rom)` is `State.resetWith` in Machine/Ops.lean. -/

namespace Sys2Proof.Machine

/-- What `current()` returns (spec 40 R90, decision D22). -/
inductive Current where
  /-- `(pc, w, decode(w))`. -/
  | word (pc w : Word) (opcode : Except DecodeError Instr)
  /-- PC is 4095 or above: reported to the host, nothing halts. -/
  | fetchOutOfRange (pc : Word)

/-- `current()`: a pure read of the instruction at PC (R90). -/
def State.current (s : State) : Current :=
  match s.fetch with
  | some w => .word s.pc w (decodeWord w)
  | none => .fetchOutOfRange s.pc

/-- `press(k)`: refused for k above 15; nothing on a halted engine; else the key latch receives k, and a pending wait is
answered (R147, R95; decisions D14 and D15, logs 24 and 25). -/
def State.press (k : Byte) (s : State) : Host.Outcome State Fault Refusal :=
  if 15 < k.toNat then .refused .keyOutOfRange
  else if s.halted then .next s
  else
    match s.waitKey with
    | none => .next (s.setKey k)
    | some r => .next (((s.setKey k).setReg r k).setWaitKey none)

/-- `release()`: no key is held; the wait latch stays (R148). -/
def State.releaseKey (s : State) : State :=
  if s.halted then s else s.setKey 0xFF

/-- `waiting_key()` (R149). -/
def State.waitingKey (s : State) : Bool := s.waitKeyByte != 0xFF

/-- The display read: all cells (R191). -/
def State.displayRead (s : State) : Display := s.disp

/-- The fault status: the record when the engine is halted; while it runs the record is meaningless and not shown
(R203). -/
def State.faultStatus (s : State) : Option FaultRecord :=
  if s.halted then some s.record else none

/-- The key event that ends a tick: `press(code)` if a key is held, else `release()` (spec 00 R8). -/
def State.keyEvent (held : Option Byte) (s : State) : Host.Outcome State Fault Refusal :=
  match held with
  | some k => s.press k
  | none => .next s.releaseKey

/-- One tick of a host that keeps its contract: a step unless a key is awaited, then the key event (spec 00 R8, spec 40
R97). The reads of the tick (display, `current`) change nothing. -/
def State.tick (held : Option Byte) (s : State) : Host.Outcome State Fault Refusal :=
  if s.waitingKey then s.keyEvent held
  else
    match step s with
    | .next t => t.keyEvent held
    | .fault f => .fault f
    | .refused r => .refused r

end Sys2Proof.Machine
end

