-- ==== Sys2Proof/Safety.lean ====
section
/-! DEFINITION. The terms the claims use: good states, what an instruction may change, and when a fault is due. -/

namespace Sys2Proof.Machine

/-! ### Running, failed, and the invariant of reachable states -/

/-- The engine runs: it has not faulted. A run that reaches a halted state has failed, and nothing but `halted` and the
record may be read from it (spec 60 R205). -/
abbrev State.running (s : State) : Prop := s.halted = false

/-- A legal key latch: a key, or 0xFF for none (spec 10 R28). -/
abbrev keyLegal (k : Byte) : Prop := k = 0xFF ∨ k.toNat < 16

/-- What holds of every reachable running state beside what the types say (spec 10 R35; R23, R24, R28). That SP is at most
16, that a V register, DT and ST are bytes, that I is a word, that the wait latch names a register or nothing and that
a cell is 0 or 1 are the types of the fields. -/
structure State.RunningInv (s : State) : Prop where
  pc_le : s.pc.toNat ≤ 0x10FE
  key_legal : keyLegal s.key
  live_le : ∀ (j : Nat) (h : j < 16), j < s.sp.val → (s.stack[j]).toNat ≤ 4096

/-- The invariant: memory has its canonical form always, and the rest while the engine runs (a halted state is free,
R205). -/
structure State.Inv (s : State) : Prop where
  ram_wf : s.ram.wf
  while_running : s.running → s.RunningInv

/-! ### What is kept: every part of the state, one by one -/

/-- One part of the state, RAM by address and the display by cell. -/
inductive Part where
  | reg (r : Reg)
  | index
  | pc
  | stackEntry (j : Fin 16)
  | sp
  | dt
  | st
  | key
  | waitKey
  | halted
  | record
  | ram (a : Nat)
  | cell (xx yy : Nat)
  | free
  deriving DecidableEq, Repr

/-- The part is the same in both states. -/
def Part.kept (s t : State) : Part → Prop
  | .reg r => t.reg r = s.reg r
  | .index => t.i = s.i
  | .pc => t.pc = s.pc
  | .stackEntry j => t.stack[j.val] = s.stack[j.val]
  | .sp => t.sp = s.sp
  | .dt => t.dt = s.dt
  | .st => t.st = s.st
  | .key => t.key = s.key
  | .waitKey => t.waitKey = s.waitKey
  | .halted => t.halted = s.halted
  | .record => t.record = s.record
  | .ram a => t.readByte a = s.readByte a
  | .cell xx yy => t.pixel xx yy = s.pixel xx yy
  | .free => t.free = s.free

/-- From `s` to `t` nothing changes but the named parts: every other register, every other byte of RAM, every other
cell. -/
def ChangesOnly (changed : Part → Prop) (s t : State) : Prop := ∀ p, ¬ changed p → Part.kept s t p

/-- The parts of a list. -/
abbrev Among (ps : List Part) : Part → Prop := fun p => p ∈ ps

/-- PC and the general registers of a list. -/
abbrev PcAndRegs (rs : List Reg) : Part → Prop := fun p => p = .pc ∨ ∃ r ∈ rs, p = .reg r

/-- The instruction takes a fault: the engine is halted and the record names the cause, the PC and the word (spec 60
R202). Nothing else of the state is claimed (R205). -/
def FaultsWith (i : Instr) (s : State) (cause : Fault) : Prop :=
  ∃ t, exec i s = .next t ∧ t.halted = true ∧ t.record = ⟨cause, s.pc, encode i⟩

/-- `n` ticks on which no key is held (spec 00 R8). -/
def idleTicks : Nat → State → Host.Outcome State Fault Refusal
  | 0, s => .next s
  | n + 1, s =>
    match s.tick none with
    | .next t => idleTicks n t
    | .fault f => .fault f
    | .refused r => .refused r

/-! ### Fields by arithmetic -/

/-- `x = (w >> 8) & 0xF` as arithmetic (spec 30 R71). -/
def arithX (w : Word) : Reg := ⟨w.toNat / 256 % 16, by omega⟩

/-- `y = (w >> 4) & 0xF` as arithmetic (spec 30 R71). -/
def arithY (w : Word) : Reg := ⟨w.toNat / 16 % 16, by omega⟩

/-- `n = w & 0xF` as arithmetic (spec 30 R71). -/
def arithN (w : Word) : Nat := w.toNat % 16

/-- `nn = w & 0xFF` as arithmetic (spec 30 R71). -/
def arithNN (w : Word) : Byte := BitVec.ofNat 8 w.toNat

/-- `nnn = w & 0xFFF` as arithmetic (spec 30 R71). -/
def arithNNN (w : Word) : Addr := BitVec.ofNat 12 w.toNat

/-- Every word with these selector bits decodes to the instruction that its fields give (spec 30 R74). -/
def RowDecodes (mask value : Word) (build : Word → Instr) : Prop :=
  ∀ w : Word, w &&& mask = value → decodeWord w = .ok (build w)

/-! ### The font -/

/-- The sixteen glyphs with their rows from the top, as the table of spec 20 R56 lists them: the claims' own copy (the rows
of the glyphs 1 to F are general knowledge, G1, PRESUMED, log 9). -/
def fontRows : List (Nat × List Byte) :=
  [(0x0, [0xF0, 0x90, 0x90, 0x90, 0xF0]), (0x1, [0x20, 0x60, 0x20, 0x20, 0x70]),
   (0x2, [0xF0, 0x10, 0xF0, 0x80, 0xF0]), (0x3, [0xF0, 0x10, 0xF0, 0x10, 0xF0]),
   (0x4, [0x90, 0x90, 0xF0, 0x10, 0x10]), (0x5, [0xF0, 0x80, 0xF0, 0x10, 0xF0]),
   (0x6, [0xF0, 0x80, 0xF0, 0x90, 0xF0]), (0x7, [0xF0, 0x10, 0x20, 0x40, 0x40]),
   (0x8, [0xF0, 0x90, 0xF0, 0x90, 0xF0]), (0x9, [0xF0, 0x90, 0xF0, 0x10, 0xF0]),
   (0xA, [0xF0, 0x90, 0xF0, 0x90, 0x90]), (0xB, [0xE0, 0x90, 0xE0, 0x90, 0xE0]),
   (0xC, [0xF0, 0x80, 0x80, 0x80, 0xF0]), (0xD, [0xE0, 0x90, 0x90, 0x90, 0xE0]),
   (0xE, [0xF0, 0x80, 0xF0, 0x80, 0xF0]), (0xF, [0xF0, 0x80, 0xF0, 0x80, 0x80])]

/-! ### Sprites -/

/-- The n sprite bytes at I (spec 46 R187). -/
def State.sprite (s : State) (n : Nat) : List Byte := (List.range n).map (fun k => s.readByte (s.i.toNat + k))

/-- The sprite drawn at column ox, row oy has a bit of 1 over the cell (spec 46 R186). -/
def covers (sprite : List Byte) (ox oy xx yy : Nat) : Bool :=
  decide (ox ≤ xx ∧ xx < ox + 8 ∧ oy ≤ yy ∧ yy < oy + sprite.length) &&
    (sprite.getD (yy - oy) 0).getLsbD (7 - (xx - ox))

/-! ### When a fault is due -/

/-- The fault of `n` consecutive accesses from I: the first address at or above 4096 (spec 20 R58, R60, spec 60 R204). -/
def State.blockFault (s : State) (n : Nat) : Option Fault :=
  if 0 < n ∧ 4096 < s.i.toNat + n then some (.memOutOfRange (max s.i.toNat 4096)) else none

/-- The fault a decoded instruction raises in a state (spec 60 R201); `LD B,Vx` makes its highest access first (R163). -/
def faultOf (i : Instr) (s : State) : Option Fault :=
  match i with
  | .call _ => if s.sp.val = 16 then some .stackOverflow else none
  | .ret => if s.sp.val = 0 then some .stackUnderflow else none
  | .ldBcd _ => if 4096 ≤ s.i.toNat + 2 then some (.memOutOfRange (s.i.toNat + 2)) else none
  | .drw _ _ n => s.blockFault n
  | .storeRegs x => s.blockFault x.val
  | .loadRegs x => s.blockFault x.val
  | .cls | .jp _ | .seByte _ _ | .sneByte _ _ | .seReg _ _ | .ldByte _ _ | .addByte _ _ | .ldReg _ _ | .orReg _ _
  | .andReg _ _ | .xorReg _ _ | .addReg _ _ | .subReg _ _ | .shrReg _ _ | .subnReg _ _ | .shlReg _ _ | .sneReg _ _
  | .ldIndex _ | .jpV0 _ | .rnd _ _ | .skp _ | .sknp _ | .ldFromDt _ | .ldKey _ | .ldDt _ | .ldSt _ | .addIndex _
  | .ldFont _ => none

/-- The fault the next step of a running engine raises (spec 60 R201). -/
def State.faultDue (s : State) : Option Fault :=
  match s.fetch with
  | none => some .fetchOutOfRange
  | some w =>
    match decodeWord w with
    | .error _ => some .unknownOpcode
    | .ok i => faultOf i s

end Sys2Proof.Machine
end

