-- ==== Sys2Proof/Certificates/Slice0/Obligations.lean ====
section
/-! DEFINITION. The statements for the provers, family by family. Each docstring names the rules of spec/ it comes from,
and says where a clause rests on a decision the spec marks as its own (D1 to D22) or on general knowledge (G1, G2). -/

open Sys2Proof Sys2Proof.Machine

/-! ### Encoding (spec 30) -/

/-- Decoding the word, or the bytes in RAM order, of any well-formed instruction gives it back with every operand. -/
def Obligations.DecodeOfEncodeGivesTheInstruction : Prop :=
  ∀ i : Instr, i.wellFormed = true →
    decodeWord (encode i) = .ok i ∧ ∀ rest : List Byte, decodeBytes (encodeBytes i ++ rest) = .ok (i, rest)

/-- R82: encoding what a recognised word decodes to gives the word, so decoding again gives the same variant; its text is
that variant's. -/
def Obligations.EncodeOfDecodeGivesTheWord : Prop :=
  ∀ (w : Word) (i : Instr), decodeWord w = .ok i →
    i.wellFormed = true ∧ encode i = w ∧ decodeWord (encode i) = .ok i ∧ textOfWord w = instrText i

/-- R74 with the fields of R71 read by arithmetic: the 34 rows, and UNKNOWN for a word that matches none of them. -/
def Obligations.DecodeFollowsTheTable : Prop :=
  RowDecodes 0xFFFF 0x00E0 (fun _ => .cls) ∧ RowDecodes 0xFFFF 0x00EE (fun _ => .ret) ∧
  RowDecodes 0xF000 0x1000 (fun w => .jp (arithNNN w)) ∧ RowDecodes 0xF000 0x2000 (fun w => .call (arithNNN w)) ∧
  RowDecodes 0xF000 0x3000 (fun w => .seByte (arithX w) (arithNN w)) ∧
  RowDecodes 0xF000 0x4000 (fun w => .sneByte (arithX w) (arithNN w)) ∧
  RowDecodes 0xF00F 0x5000 (fun w => .seReg (arithX w) (arithY w)) ∧
  RowDecodes 0xF000 0x6000 (fun w => .ldByte (arithX w) (arithNN w)) ∧
  RowDecodes 0xF000 0x7000 (fun w => .addByte (arithX w) (arithNN w)) ∧
  RowDecodes 0xF00F 0x8000 (fun w => .ldReg (arithX w) (arithY w)) ∧
  RowDecodes 0xF00F 0x8001 (fun w => .orReg (arithX w) (arithY w)) ∧
  RowDecodes 0xF00F 0x8002 (fun w => .andReg (arithX w) (arithY w)) ∧
  RowDecodes 0xF00F 0x8003 (fun w => .xorReg (arithX w) (arithY w)) ∧
  RowDecodes 0xF00F 0x8004 (fun w => .addReg (arithX w) (arithY w)) ∧
  RowDecodes 0xF00F 0x8005 (fun w => .subReg (arithX w) (arithY w)) ∧
  RowDecodes 0xF00F 0x8006 (fun w => .shrReg (arithX w) (arithY w)) ∧
  RowDecodes 0xF00F 0x8007 (fun w => .subnReg (arithX w) (arithY w)) ∧
  RowDecodes 0xF00F 0x800E (fun w => .shlReg (arithX w) (arithY w)) ∧
  RowDecodes 0xF00F 0x9000 (fun w => .sneReg (arithX w) (arithY w)) ∧
  RowDecodes 0xF000 0xA000 (fun w => .ldIndex (arithNNN w)) ∧ RowDecodes 0xF000 0xB000 (fun w => .jpV0 (arithNNN w)) ∧
  RowDecodes 0xF000 0xC000 (fun w => .rnd (arithX w) (arithNN w)) ∧
  RowDecodes 0xF000 0xD000 (fun w => .drw (arithX w) (arithY w) (arithN w)) ∧
  RowDecodes 0xF0FF 0xE09E (fun w => .skp (arithX w)) ∧ RowDecodes 0xF0FF 0xE0A1 (fun w => .sknp (arithX w)) ∧
  RowDecodes 0xF0FF 0xF007 (fun w => .ldFromDt (arithX w)) ∧ RowDecodes 0xF0FF 0xF00A (fun w => .ldKey (arithX w)) ∧
  RowDecodes 0xF0FF 0xF015 (fun w => .ldDt (arithX w)) ∧ RowDecodes 0xF0FF 0xF018 (fun w => .ldSt (arithX w)) ∧
  RowDecodes 0xF0FF 0xF01E (fun w => .addIndex (arithX w)) ∧ RowDecodes 0xF0FF 0xF029 (fun w => .ldFont (arithX w)) ∧
  RowDecodes 0xF0FF 0xF033 (fun w => .ldBcd (arithX w)) ∧ RowDecodes 0xF0FF 0xF055 (fun w => .storeRegs (arithX w)) ∧
  RowDecodes 0xF0FF 0xF065 (fun w => .loadRegs (arithX w)) ∧
  ∀ w : Word,
    (∀ row ∈ ([(0xFFFF, 0x00E0), (0xFFFF, 0x00EE), (0xF000, 0x1000), (0xF000, 0x2000), (0xF000, 0x3000),
        (0xF000, 0x4000), (0xF00F, 0x5000), (0xF000, 0x6000), (0xF000, 0x7000), (0xF00F, 0x8000), (0xF00F, 0x8001),
        (0xF00F, 0x8002), (0xF00F, 0x8003), (0xF00F, 0x8004), (0xF00F, 0x8005), (0xF00F, 0x8006), (0xF00F, 0x8007),
        (0xF00F, 0x800E), (0xF00F, 0x9000), (0xF000, 0xA000), (0xF000, 0xB000), (0xF000, 0xC000), (0xF000, 0xD000),
        (0xF0FF, 0xE09E), (0xF0FF, 0xE0A1), (0xF0FF, 0xF007), (0xF0FF, 0xF00A), (0xF0FF, 0xF015), (0xF0FF, 0xF018),
        (0xF0FF, 0xF01E), (0xF0FF, 0xF029), (0xF0FF, 0xF033), (0xF0FF, 0xF055), (0xF0FF, 0xF065)] : List (Word × Word)),
      w &&& row.1 ≠ row.2) → decodeWord w = .error (.unknown w)

/-- R75 (an inference the spec marks as its own): no word is selected by two rows of the table. -/
def Obligations.NoWordMatchesTwoRows : Prop :=
  ∀ (w : Word) (j k : Nat) (r q : DecodeRow), decodeTable[j]? = some r → decodeTable[k]? = some q →
    r.selects w = true → q.selects w = true → j = k

/-- R77: the UNKNOWN words are exactly the six listed groups. -/
def Obligations.UnknownWordsAreTheSixListedGroups : Prop :=
  ∀ w : Word, decodeWord w = .error (.unknown w) ↔
    (w.toNat / 4096 = 0x0 ∧ w.toNat ≠ 0x00E0 ∧ w.toNat ≠ 0x00EE) ∨
    (w.toNat / 4096 = 0x5 ∧ w.toNat % 16 ≠ 0) ∨
    (w.toNat / 4096 = 0x8 ∧ w.toNat % 16 ∈ [0x8, 0x9, 0xA, 0xB, 0xC, 0xD, 0xF]) ∨
    (w.toNat / 4096 = 0x9 ∧ w.toNat % 16 ≠ 0) ∨
    (w.toNat / 4096 = 0xE ∧ w.toNat % 256 ∉ [0x9E, 0xA1]) ∨
    (w.toNat / 4096 = 0xF ∧ w.toNat % 256 ∉ [0x07, 0x0A, 0x15, 0x18, 0x1E, 0x29, 0x33, 0x55, 0x65])

/-- A word of each family, written out from R74 and R79, decodes to the instruction it stands for. -/
def Obligations.SampleWordsDecode : Prop :=
  decodeWord 0x8AB4 = .ok (.addReg 0xA 0xB) ∧ decodeWord 0x2206 = .ok (.call 0x206) ∧
  decodeWord 0xF30A = .ok (.ldKey 3) ∧ decodeWord 0xF355 = .ok (.storeRegs 3) ∧
  decodeWord 0xC10F = .ok (.rnd 1 0x0F) ∧ decodeWord 0xD015 = .ok (.drw 0 1 5) ∧
  decodeWord 0x00FD = .error (.unknown 0x00FD)

/-! ### The step (spec 40, spec 60) -/

/-- R91 (the fused form is decision D13, the odd PC D7, the ST half D5): a running engine whose big-endian word at PC
(even or odd, R53) decodes to an instruction runs it on the state with both timers counted down; `current` reports the
same word and opcode (R90; at a PC of 4095 or more see `CurrentReportsTheWordOrTheFetchFault`). -/
def Obligations.StepRunsTheDecodedInstruction : Prop :=
  ∀ (s : State) (w : Word) (i : Instr), s.running → s.pc.toNat ≤ 4094 →
    w.toNat = (s.readByte s.pc.toNat).toNat * 256 + (s.readByte (s.pc.toNat + 1)).toNat → decodeWord w = .ok i →
    s.current = .word s.pc w (.ok i) ∧
    step s = exec i { s with dt := if s.dt = 0 then 0 else s.dt - 1, st := if s.st = 0 then 0 else s.st - 1 }

/-- R90 (that `current` reports a fetch fault and does not halt is decision D22, log 12, DESIGN CHOICE): from every state,
halted or not, `current` gives the PC with the big-endian word there and what it decodes to, `UNKNOWN` included, and at a PC
of 4095 or more it reports the fetch fault. It is a function of the state, so it changes none. -/
def Obligations.CurrentReportsTheWordOrTheFetchFault : Prop :=
  ∀ s : State,
    (∀ w : Word, s.pc.toNat ≤ 4094 →
      w.toNat = (s.readByte s.pc.toNat).toNat * 256 + (s.readByte (s.pc.toNat + 1)).toNat →
      s.current = .word s.pc w (decodeWord w)) ∧
    (4095 ≤ s.pc.toNat → s.current = .fetchOutOfRange s.pc)

/-- R93, R26 (the ST half is decision D5): every completed step has counted each timer down once, stopping at 0, before
the instruction's own effect: `LD Vx,DT` reads the lower value, and only `LD DT,Vx` and `LD ST,Vx` replace it. -/
def Obligations.TimersCountDownOnceBeforeTheInstruction : Prop :=
  ∀ (s : State) (w : Word) (i : Instr), s.running → s.fetch = some w → decodeWord w = .ok i → faultOf i s = none →
    ∃ t, step s = .next t ∧
      ((∀ x, i ≠ .ldDt x) → t.dt.toNat = s.dt.toNat - 1) ∧ (∀ x, i = .ldDt x → t.dt = s.reg x) ∧
      ((∀ x, i ≠ .ldSt x) → t.st.toNat = s.st.toNat - 1) ∧ (∀ x, i = .ldSt x → t.st = s.reg x) ∧
      (∀ x, i = .ldFromDt x → (t.reg x).toNat = s.dt.toNat - 1)

/-- R95, R206 (decision D12): on a halted engine steps and key events change nothing, however many there are, and
`reset(rom)` sets it running again. -/
def Obligations.OnlyResetLeavesTheHaltedState : Prop :=
  ∀ s : State, s.halted = true →
    (∀ n, Sys2Proof.core.run n s = .next s) ∧ (∀ k : Byte, k.toNat ≤ 15 → s.press k = .next s) ∧ s.releaseKey = s ∧
    ∀ rom : List Byte, rom.length ≤ 3584 → ∃ t, s.resetWith rom = .next t ∧ t.running

/-- R96: a step has no third outcome; it answers a next state from every state (a fault being taken as the next state
that has `halted` set, log 1), and so does every instruction. -/
def Obligations.EveryStepAnswersANextState : Prop :=
  (∀ s : State, ∃ t, step s = .next t) ∧ ∀ (i : Instr) (s : State), ∃ t, exec i s = .next t

/-- R201, R202, R204 (the record and FetchOutOfRange are decisions D6, D11 and D12): a step of a running engine halts it
exactly when one of the five faults is due, and then the record holds that cause, the PC of the step and, when there is
one, the word fetched. -/
def Obligations.StepHaltsExactlyOnTheFiveFaults : Prop :=
  ∀ s : State, s.running → ∃ t, step s = .next t ∧
    match s.faultDue with
    | none => t.running
    | some f => t.halted = true ∧ t.record.cause = f ∧ t.record.faultPc = s.pc ∧
        ∀ w, s.fetch = some w → t.record.faultWord = w

/-- R37, the instruction column, with the destinations, flags and stored addresses of each instruction's own rule (R21, R60
and spec 41 to 46), as a frame of every instruction: an instruction whose fault is not due completes and writes only PC and
the state named here; no instruction writes the key latch, `halted` or the record. That `RND` counts a draw in `free` is the
model's (log 3). -/
def Obligations.InstructionsWriteOnlyTheirOwnState : Prop :=
  ∀ (i : Instr) (s : State), faultOf i s = none → ∃ t, exec i s = .next t ∧
    ChangesOnly (fun p => p = .pc ∨
      match i with
      | .cls => ∃ xx yy, p = .cell xx yy
      | .ret => p = .sp
      | .call _ => p = .sp ∨ ∃ j, j.val = s.sp.val ∧ p = .stackEntry j
      | .ldByte x _ | .addByte x _ | .ldReg x _ | .orReg x _ | .andReg x _ | .xorReg x _ | .ldFromDt x => p = .reg x
      | .addReg x _ | .subReg x _ | .shrReg x _ | .shlReg x _ => p = .reg x ∨ p = .reg VF
      | .subnReg _ y => p = .reg y ∨ p = .reg VF
      | .ldIndex _ | .ldFont _ => p = .index
      | .addIndex _ => p = .index ∨ p = .reg VF
      | .rnd x _ => p = .reg x ∨ p = .free
      | .drw _ _ _ => p = .reg VF ∨ ∃ xx yy, p = .cell xx yy
      | .ldKey _ => p = .waitKey
      | .ldDt _ => p = .dt
      | .ldSt _ => p = .st
      | .ldBcd _ => ∃ k, k < 3 ∧ p = .ram (s.i.toNat + k)
      | .storeRegs x => ∃ k, k < x.val ∧ p = .ram (s.i.toNat + k)
      | .loadRegs x => ∃ r : Reg, r.val < x.val ∧ p = .reg r
      | .jp _ | .jpV0 _ | .seByte _ _ | .sneByte _ _ | .seReg _ _ | .sneReg _ _ | .skp _ | .sknp _ => False) s t

/-- R27 (an inference the spec marks as its own): the sound timer is unobservable. Two running states that differ in ST
alone step to states that differ in ST alone, or both halt with the same cause at the same PC. It compares two runs, and for
`RND` both get the same draw, the byte of `Config.randomByte` that their common counter names (log 4, DESIGN CHOICE, unsafe
for such a claim). -/
def Obligations.SoundTimerIsNeverRead : Prop :=
  ∀ (s : State) (b : Byte), s.running → ∃ t u, step s = .next t ∧ step { s with st := b } = .next u ∧
    u.halted = t.halted ∧ (t.running → ChangesOnly (Among [.st]) t u) ∧
    (t.halted = true → u.record.cause = t.record.cause ∧ u.record.faultPc = t.record.faultPc)

/-- R94 (with G2 for the four `SE`/`SNE` skips): where PC is after each instruction that completes. Sums are formed
without wrap for every PC an instruction is fetched from. -/
def Obligations.PcFollowsTheFourClasses : Prop :=
  ∀ (i : Instr) (s : State), s.pc.toNat ≤ 4094 → faultOf i s = none → ∃ t, exec i s = .next t ∧
    match i with
    | .cls | .ldByte _ _ | .addByte _ _ | .ldReg _ _ | .orReg _ _ | .andReg _ _ | .xorReg _ _ | .addReg _ _
    | .subReg _ _ | .shrReg _ _ | .subnReg _ _ | .shlReg _ _ | .ldIndex _ | .rnd _ _ | .drw _ _ _ | .ldFromDt _
    | .ldKey _ | .ldDt _ | .ldSt _ | .addIndex _ | .ldFont _ | .ldBcd _ | .storeRegs _ | .loadRegs _ =>
      t.pc.toNat = s.pc.toNat + 2
    | .seByte x nn => t.pc.toNat = s.pc.toNat + if s.reg x = nn then 4 else 2
    | .sneByte x nn => t.pc.toNat = s.pc.toNat + if s.reg x ≠ nn then 4 else 2
    | .seReg x y => t.pc.toNat = s.pc.toNat + if s.reg x = s.reg y then 4 else 2
    | .sneReg x y => t.pc.toNat = s.pc.toNat + if s.reg x ≠ s.reg y then 4 else 2
    | .skp x => t.pc.toNat = s.pc.toNat + if s.reg x = s.key then 4 else 2
    | .sknp x => t.pc.toNat = s.pc.toNat + if s.reg x ≠ s.key then 4 else 2
    | .jp nnn | .call nnn => t.pc.toNat = nnn.toNat
    | .jpV0 nnn => t.pc.toNat = nnn.toNat + (s.reg V0).toNat
    | .ret => ∀ (j : Nat) (h : j < 16), j + 1 = s.sp.val → t.pc = s.stack[j]

/-! ### Invariants and reset (spec 10, spec 70) -/

/-- The invariant holds right after reset. -/
def Obligations.ResetMeetsTheInvariant : Prop := State.reset.Inv

/-- R35, R23, R24, R28: from every state that meets it, a step gives a state that meets it: memory is canonical, and a
running engine has PC at most 0x10FE, a legal key latch and live stack entries at most 4096. -/
def Obligations.EveryStepKeepsTheInvariant : Prop :=
  ∀ s t : State, s.Inv → step s = .next t → t.Inv

/-- The host's operations keep it too: a legal press, a release, a reset with any ROM that is not refused, and a tick. -/
def Obligations.HostOperationsKeepTheInvariant : Prop :=
  ∀ s : State, s.Inv →
    (∀ k t, s.press k = .next t → t.Inv) ∧ s.releaseKey.Inv ∧ (∀ rom t, s.resetWith rom = .next t → t.Inv) ∧
    ∀ held t, s.tick held = .next t → t.Inv

/-- R230, R36, R57 (with decisions D8, D9 and D10): reset from any state. The registers and latches have their reset
values, the display is off, RAM holds the ROM verbatim at 0x200, the sixteen glyphs of the font at 0x050 to 0x09F (R56;
the rows of the glyphs 1 to F are general knowledge, G1, log 9, PRESUMED, and only glyph 0 is the source's) and 0
everywhere else; a longer ROM is refused. -/
def Obligations.ResetLoadsTheRomAndClearsTheRest : Prop :=
  ∀ (s : State) (rom : List Byte),
    (rom.length ≤ 3584 → ∃ t, s.resetWith rom = .next t ∧
      (∀ r, t.reg r = 0) ∧ t.i = 0 ∧ t.pc = 0x200 ∧ t.sp = 0 ∧ (∀ (j : Nat) (h : j < 16), t.stack[j] = 0) ∧
      t.dt = 0 ∧ t.st = 0 ∧ t.key = 0xFF ∧ t.waitKeyByte = 0xFF ∧ t.waitingKey = false ∧ t.running ∧
      (∀ xx yy, t.pixel xx yy = false) ∧
      (∀ (k : Nat) (h : k < rom.length), t.readByte (0x200 + k) = rom[k]) ∧
      (∀ a, a < 0x050 ∨ (0x0A0 ≤ a ∧ a < 0x200) ∨ 0x200 + rom.length ≤ a → t.readByte a = 0) ∧
      (∀ (d : Nat) (rows : List Byte), (d, rows) ∈ fontRows →
        ∀ (k : Nat) (b : Byte), rows[k]? = some b → t.readByte (0x050 + 5 * d + k) = b)) ∧
    (3584 < rom.length → s.resetWith rom = .refused .romTooLong)

/-! ### Arithmetic and logic (spec 41) -/

/-- R100. -/
def Obligations.LoadByteWritesVx : Prop :=
  RowDecodes 0xF000 0x6000 (fun w => .ldByte (arithX w) (arithNN w)) ∧
  ∀ (x : Reg) (nn : Byte) (s : State), ∃ t, exec (.ldByte x nn) s = .next t ∧
    t.reg x = nn ∧ t.pc = s.pc + 2 ∧ ChangesOnly (PcAndRegs [x]) s t

/-- R101: no flag; VF changes only as the destination. -/
def Obligations.AddByteWrapsAndWritesNoFlag : Prop :=
  RowDecodes 0xF000 0x7000 (fun w => .addByte (arithX w) (arithNN w)) ∧
  ∀ (x : Reg) (nn : Byte) (s : State), ∃ t, exec (.addByte x nn) s = .next t ∧
    (t.reg x).toNat = ((s.reg x).toNat + nn.toNat) % 256 ∧ t.pc = s.pc + 2 ∧ ChangesOnly (PcAndRegs [x]) s t

/-- R102. -/
def Obligations.LoadRegCopiesVy : Prop :=
  RowDecodes 0xF00F 0x8000 (fun w => .ldReg (arithX w) (arithY w)) ∧
  ∀ (x y : Reg) (s : State), ∃ t, exec (.ldReg x y) s = .next t ∧
    t.reg x = s.reg y ∧ t.reg y = s.reg y ∧ t.pc = s.pc + 2 ∧ ChangesOnly (PcAndRegs [x]) s t

/-- R103, R104, R105: bit by bit on all eight bits, VF unchanged unless it is the destination; with x = y `OR` and `AND`
leave Vx and `XOR` clears it. -/
def Obligations.LogicIsBitwiseAndLeavesVf : Prop :=
  RowDecodes 0xF00F 0x8001 (fun w => .orReg (arithX w) (arithY w)) ∧
  RowDecodes 0xF00F 0x8002 (fun w => .andReg (arithX w) (arithY w)) ∧
  RowDecodes 0xF00F 0x8003 (fun w => .xorReg (arithX w) (arithY w)) ∧
  ∀ (x y : Reg) (s : State),
    (∃ t, exec (.orReg x y) s = .next t ∧
      (∀ k, k < 8 → (t.reg x).getLsbD k = ((s.reg x).getLsbD k || (s.reg y).getLsbD k)) ∧
      (x = y → t.reg x = s.reg x) ∧ t.pc = s.pc + 2 ∧ ChangesOnly (PcAndRegs [x]) s t) ∧
    (∃ t, exec (.andReg x y) s = .next t ∧
      (∀ k, k < 8 → (t.reg x).getLsbD k = ((s.reg x).getLsbD k && (s.reg y).getLsbD k)) ∧
      (x = y → t.reg x = s.reg x) ∧ t.pc = s.pc + 2 ∧ ChangesOnly (PcAndRegs [x]) s t) ∧
    (∃ t, exec (.xorReg x y) s = .next t ∧
      (∀ k, k < 8 → (t.reg x).getLsbD k = ((s.reg x).getLsbD k ^^ (s.reg y).getLsbD k)) ∧
      (x = y → t.reg x = 0) ∧ t.pc = s.pc + 2 ∧ ChangesOnly (PcAndRegs [x]) s t)

/-- R106, R111, R112: the carry and the sum, and what they are when VF is an operand (its re-reading is decision D4). -/
def Obligations.AddRegSetsCarryThenSum : Prop :=
  ∀ (x y : Reg) (s : State) (a b c : Nat), a = (s.reg x).toNat → b = (s.reg y).toNat →
    c = (if a + b > 255 then 1 else 0) →
    ∃ t, exec (.addReg x y) s = .next t ∧ t.pc = s.pc + 2 ∧ ChangesOnly (PcAndRegs [x, VF]) s t ∧
      (x ≠ VF → y ≠ VF → (t.reg x).toNat = (a + b) % 256 ∧ (t.reg VF).toNat = c) ∧
      (x = VF → y ≠ VF → (t.reg VF).toNat = (c + b) % 256) ∧
      (x ≠ VF → y = VF → (t.reg x).toNat = (a + c) % 256 ∧ (t.reg VF).toNat = c) ∧
      (x = VF → y = VF → (t.reg VF).toNat = 2 * c)

/-- R107, R111, R112: the not-borrow and the difference, and what they are when VF is an operand (decision D4). -/
def Obligations.SubRegSetsNotBorrowThenDifference : Prop :=
  ∀ (x y : Reg) (s : State) (a b f : Nat), a = (s.reg x).toNat → b = (s.reg y).toNat →
    f = (if a ≥ b then 1 else 0) →
    ∃ t, exec (.subReg x y) s = .next t ∧ t.pc = s.pc + 2 ∧ ChangesOnly (PcAndRegs [x, VF]) s t ∧
      (x ≠ VF → y ≠ VF → (t.reg x).toNat = (256 + a - b) % 256 ∧ (t.reg VF).toNat = f) ∧
      (x = VF → y ≠ VF → (t.reg VF).toNat = (256 + f - b) % 256) ∧
      (x ≠ VF → y = VF → (t.reg x).toNat = (256 + a - f) % 256 ∧ (t.reg VF).toNat = f) ∧
      (x = VF → y = VF → (t.reg VF).toNat = 0)

/-- R109, R111, R112: `SUBN` writes **Vy**; when VF is an operand as decision D4 has it. -/
def Obligations.SubnRegWritesVy : Prop :=
  ∀ (x y : Reg) (s : State) (a b f : Nat), a = (s.reg x).toNat → b = (s.reg y).toNat →
    f = (if b ≥ a then 1 else 0) →
    ∃ t, exec (.subnReg x y) s = .next t ∧ t.pc = s.pc + 2 ∧ ChangesOnly (PcAndRegs [y, VF]) s t ∧
      (x ≠ VF → y ≠ VF → (t.reg y).toNat = (256 + b - a) % 256 ∧ (t.reg VF).toNat = f) ∧
      (x ≠ VF → y = VF → (t.reg VF).toNat = (256 + f - a) % 256) ∧
      (x = VF → y ≠ VF → (t.reg y).toNat = (256 + b - f) % 256 ∧ (t.reg VF).toNat = f) ∧
      (x = VF → y = VF → (t.reg VF).toNat = 0)

/-- R108, R111, R112: `SHR` shifts Vy into Vx; when VF is an operand as decision D4 has it. -/
def Obligations.ShrRegShiftsVyRight : Prop :=
  ∀ (x y : Reg) (s : State) (b : Nat), b = (s.reg y).toNat →
    ∃ t, exec (.shrReg x y) s = .next t ∧ t.pc = s.pc + 2 ∧ ChangesOnly (PcAndRegs [x, VF]) s t ∧
      (x ≠ VF → y ≠ VF → (t.reg x).toNat = b / 2 ∧ (t.reg VF).toNat = b % 2) ∧
      (x = VF → y ≠ VF → (t.reg VF).toNat = b / 2) ∧
      (x ≠ VF → y = VF → (t.reg x).toNat = 0 ∧ (t.reg VF).toNat = b % 2) ∧
      (x = VF → y = VF → (t.reg VF).toNat = 0)

/-- R110, R111, R112: `SHL` shifts Vy into Vx; when VF is an operand as decision D4 has it. -/
def Obligations.ShlRegShiftsVyLeft : Prop :=
  ∀ (x y : Reg) (s : State) (b : Nat), b = (s.reg y).toNat →
    ∃ t, exec (.shlReg x y) s = .next t ∧ t.pc = s.pc + 2 ∧ ChangesOnly (PcAndRegs [x, VF]) s t ∧
      (x ≠ VF → y ≠ VF → (t.reg x).toNat = 2 * b % 256 ∧ (t.reg VF).toNat = b / 128) ∧
      (x = VF → y ≠ VF → (t.reg VF).toNat = 2 * b % 256) ∧
      (x ≠ VF → y = VF → (t.reg x).toNat = 2 * (b / 128) ∧ (t.reg VF).toNat = b / 128) ∧
      (x = VF → y = VF → (t.reg VF).toNat = 2 * (b / 128))

/-- R21, over all instructions: after one of the seven flag writers VF is 0 or 1 unless VF is its destination as well, and
an instruction that is none of them changes VF only as its destination. -/
def Obligations.VfIsAFlagAfterTheSevenFlagWriters : Prop :=
  ∀ (i : Instr) (s : State), faultOf i s = none → ∃ t, exec i s = .next t ∧
    match i with
    | .addReg x _ | .subReg x _ | .shrReg x _ | .shlReg x _ => x ≠ VF → t.reg VF = 0 ∨ t.reg VF = 1
    | .subnReg _ y => y ≠ VF → t.reg VF = 0 ∨ t.reg VF = 1
    | .addIndex _ | .drw _ _ _ => t.reg VF = 0 ∨ t.reg VF = 1
    | .ldByte x _ | .addByte x _ | .ldReg x _ | .orReg x _ | .andReg x _ | .xorReg x _ | .rnd x _ | .ldFromDt x =>
      x ≠ VF → t.reg VF = s.reg VF
    | .cls | .ret | .jp _ | .call _ | .jpV0 _ | .seByte _ _ | .sneByte _ _ | .seReg _ _ | .sneReg _ _ | .skp _ | .sknp _
    | .ldIndex _ | .ldKey _ | .ldDt _ | .ldSt _ | .ldFont _ | .ldBcd _ | .storeRegs _ | .loadRegs _ =>
      t.reg VF = s.reg VF

/-! ### Control flow (spec 42) -/

/-- R120: the stack and SP are untouched, and a target of 0xFFF makes the next step fault at the fetch (what that fault is,
is decision D6). -/
def Obligations.JumpGoesToTheAddress : Prop :=
  RowDecodes 0xF000 0x1000 (fun w => .jp (arithNNN w)) ∧
  ∀ (nnn : Addr) (s : State), ∃ t, exec (.jp nnn) s = .next t ∧
    t.pc.toNat = nnn.toNat ∧ ChangesOnly (Among [.pc]) s t ∧
    (s.running → nnn = 0xFFF → ∃ u, step t = .next u ∧ u.halted = true ∧ u.record.cause = .fetchOutOfRange)

/-- R121: V0 is the offset register and the 13-bit sum is not reduced; with V0 = 0 it is `JP addr`; a sum of 4095 or more
makes the next step fault at the fetch (what that fault is, is decision D6). -/
def Obligations.JumpV0AddsV0WithoutWrap : Prop :=
  RowDecodes 0xF000 0xB000 (fun w => .jpV0 (arithNNN w)) ∧
  ∀ (nnn : Addr) (s : State), ∃ t, exec (.jpV0 nnn) s = .next t ∧
    t.pc.toNat = nnn.toNat + (s.reg 0).toNat ∧ t.pc.toNat ≤ 0x10FE ∧ ChangesOnly (Among [.pc]) s t ∧
    (s.reg 0 = 0 → exec (.jp nnn) s = .next t) ∧
    (s.running → 4095 ≤ t.pc.toNat → ∃ u, step t = .next u ∧ u.halted = true ∧ u.record.cause = .fetchOutOfRange)

/-- R122, R25 (the form of the fault is decisions D11 and D12): `CALL` pushes `pc + 2` when there is room and overflows
when SP is 16. -/
def Obligations.CallPushesOrOverflows : Prop :=
  ∀ (nnn : Addr) (s : State),
    (s.sp.val < 16 → ∃ t, exec (.call nnn) s = .next t ∧ t.pc.toNat = nnn.toNat ∧ t.sp.val = s.sp.val + 1 ∧
      (∀ (j : Nat) (h : j < 16), j = s.sp.val → t.stack[j] = s.pc + 2) ∧
      ChangesOnly (fun p => p = .pc ∨ p = .sp ∨ ∃ j, j.val = s.sp.val ∧ p = .stackEntry j) s t) ∧
    (s.sp.val = 16 → FaultsWith (.call nnn) s .stackOverflow)

/-- R123, R25 (the form of the fault is decisions D11 and D12): `RET` pops the newest entry, unchanged, and underflows when
SP is 0. -/
def Obligations.ReturnPopsOrUnderflows : Prop :=
  ∀ s : State,
    (0 < s.sp.val → ∃ t, exec .ret s = .next t ∧ t.sp.val + 1 = s.sp.val ∧
      (∀ (j : Nat) (h : j < 16), j + 1 = s.sp.val → t.pc = s.stack[j]) ∧ ChangesOnly (Among [.pc, .sp]) s t) ∧
    (s.sp.val = 0 → FaultsWith .ret s .stackUnderflow)

/-- R122 and R123 together: a return from a subroutine that kept the stack comes back behind the call, with the stack as
it was for every live entry. -/
def Obligations.ReturnComesBackBehindTheCall : Prop :=
  ∀ (nnn : Addr) (s : State), s.sp.val < 16 → ∃ t, exec (.call nnn) s = .next t ∧
    ∀ t' : State, t'.sp = t.sp → t'.stack = t.stack → ∃ u, exec .ret t' = .next u ∧
      u.pc = s.pc + 2 ∧ u.sp = s.sp ∧ ∀ (j : Nat) (h : j < 16), j < s.sp.val → u.stack[j] = s.stack[j]

/-- R124, R125 (the conditions are general knowledge, G2, log 10). -/
def Obligations.ByteSkipsCompareVxWithTheByte : Prop :=
  ∀ (x : Reg) (nn : Byte) (s : State),
    (∃ t, exec (.seByte x nn) s = .next t ∧ (s.reg x = nn → t.pc = s.pc + 4) ∧ (s.reg x ≠ nn → t.pc = s.pc + 2) ∧
      ChangesOnly (Among [.pc]) s t) ∧
    (∃ t, exec (.sneByte x nn) s = .next t ∧ (s.reg x ≠ nn → t.pc = s.pc + 4) ∧ (s.reg x = nn → t.pc = s.pc + 2) ∧
      ChangesOnly (Among [.pc]) s t)

/-- R126, R127 (the conditions are general knowledge, G2, log 10). -/
def Obligations.RegSkipsCompareVxWithVy : Prop :=
  ∀ (x y : Reg) (s : State),
    (∃ t, exec (.seReg x y) s = .next t ∧ (s.reg x = s.reg y → t.pc = s.pc + 4) ∧
      (s.reg x ≠ s.reg y → t.pc = s.pc + 2) ∧ ChangesOnly (Among [.pc]) s t) ∧
    (∃ t, exec (.sneReg x y) s = .next t ∧ (s.reg x ≠ s.reg y → t.pc = s.pc + 4) ∧
      (s.reg x = s.reg y → t.pc = s.pc + 2) ∧ ChangesOnly (Among [.pc]) s t)

/-! ### Timers and keypad (spec 43) -/

/-- R140, R141, R142 (that ST is kept is decision D5): the timer instructions move a byte and nothing else. -/
def Obligations.TimerInstructionsMoveOneByte : Prop :=
  ∀ (x : Reg) (s : State),
    (∃ t, exec (.ldDt x) s = .next t ∧ t.dt = s.reg x ∧ t.pc = s.pc + 2 ∧ ChangesOnly (Among [.pc, .dt]) s t) ∧
    (∃ t, exec (.ldFromDt x) s = .next t ∧ t.reg x = s.dt ∧ t.pc = s.pc + 2 ∧ ChangesOnly (PcAndRegs [x]) s t) ∧
    (∃ t, exec (.ldSt x) s = .next t ∧ t.st = s.reg x ∧ t.pc = s.pc + 2 ∧ ChangesOnly (Among [.pc, .st]) s t)

/-- R140, R235: a program that sets DT to N and reads it in the next instruction sees N - 1 (0 for N = 0). -/
def Obligations.DelayTimerReadsBackOneLess : Prop :=
  ∀ (s : State) (x y : Reg) (w w' : Word), s.running → s.fetch = some w → decodeWord w = .ok (.ldDt x) →
    ∃ t, step s = .next t ∧ (t.fetch = some w' → decodeWord w' = .ok (.ldFromDt y) →
      ∃ u, step t = .next u ∧ (u.reg y).toNat = (s.reg x).toNat - 1)

/-- R143: `LD Vx,K` arms the wait latch with x, overwriting an earlier wait, writes no register and does not look at the
key latch; `waiting_key()` is then true, and the next press stores its key in Vx, clears the wait and leaves PC. -/
def Obligations.LoadKeyArmsTheWaitLatch : Prop :=
  RowDecodes 0xF0FF 0xF00A (fun w => .ldKey (arithX w)) ∧
  ∀ (x : Reg) (s : State), ∃ t, exec (.ldKey x) s = .next t ∧ t.waitKeyByte.toNat = x.val ∧ t.waitingKey = true ∧
    t.pc = s.pc + 2 ∧ ChangesOnly (Among [.pc, .waitKey]) s t ∧
    ∀ k : Byte, s.running → k.toNat ≤ 15 → ∃ u, t.press k = .next u ∧ u.reg x = k ∧ u.waitingKey = false ∧ u.pc = t.pc

/-- R144, R145: all eight bits of Vx against the key latch; with no key held (0xFF) only Vx = 0xFF matches (an inference
the spec marks as its own). -/
def Obligations.KeySkipsCompareVxWithTheLatch : Prop :=
  ∀ (x : Reg) (s : State),
    (∃ t, exec (.skp x) s = .next t ∧ (s.reg x = s.key → t.pc = s.pc + 4) ∧ (s.reg x ≠ s.key → t.pc = s.pc + 2) ∧
      ChangesOnly (Among [.pc]) s t) ∧
    (∃ t, exec (.sknp x) s = .next t ∧ (s.reg x ≠ s.key → t.pc = s.pc + 4) ∧ (s.reg x = s.key → t.pc = s.pc + 2) ∧
      ChangesOnly (Among [.pc]) s t)

/-- R147 (decisions D14 and D15, logs 24 and 25): a press writes the key latch, and answers a pending wait by writing
its register and clearing the wait latch; a key above 15 is refused. -/
def Obligations.PressWritesTheKeyAndAnswersTheWait : Prop :=
  ∀ (s : State) (k : Byte),
    (15 < k.toNat → s.press k = .refused .keyOutOfRange) ∧
    (k.toNat ≤ 15 → s.running → s.waitKey = none → ∃ t, s.press k = .next t ∧ t.key = k ∧
      ChangesOnly (Among [.key]) s t) ∧
    (k.toNat ≤ 15 → s.running → ∀ r, s.waitKey = some r → ∃ t, s.press k = .next t ∧ t.key = k ∧ t.reg r = k ∧
      t.waitingKey = false ∧ ChangesOnly (Among [.key, .waitKey, .reg r]) s t)

/-- R148 (that a release writes 0xFF is decision D14, log 25, DESIGN CHOICE, unsafe; that it does nothing on a halted engine
is decision D12): a release writes 0xFF to the key latch of a running engine and nothing else: the wait goes on, across any
number of releases. -/
def Obligations.ReleaseClearsOnlyTheKeyLatch : Prop :=
  ∀ s : State, (s.halted = true → s.releaseKey = s) ∧
    (s.running → s.releaseKey.key = 0xFF ∧ s.releaseKey.waitingKey = s.waitingKey ∧
      ChangesOnly (Among [.key]) s s.releaseKey ∧ ∀ n : Nat, (State.releaseKey^[n] s).waitKey = s.waitKey)

/-- R149, R35 (g): a step of a running engine that does not fault makes `waiting_key()` true if it runs `LD Vx,K` and
leaves it otherwise; a press makes it false; a release leaves it. -/
def Obligations.WaitingKeyHoldsFromLoadKeyToPress : Prop :=
  ∀ s : State, s.running →
    (∀ (w : Word) (i : Instr), s.fetch = some w → decodeWord w = .ok i → faultOf i s = none → ∃ t, step s = .next t ∧
      ((∃ x, i = .ldKey x) → t.waitingKey = true) ∧ ((∀ x, i ≠ .ldKey x) → t.waitingKey = s.waitingKey)) ∧
    (∀ k : Byte, k.toNat ≤ 15 → ∃ t, s.press k = .next t ∧ t.waitingKey = false) ∧
    s.releaseKey.waitingKey = s.waitingKey

/-- R150, R97, R236 (what `press` and `release` write to the key latch is decision D14, log 25): for a host that keeps
its tick sequence, a waiting engine is frozen, timers included, over any number of ticks with no key, and the first tick
with a key held answers the wait without a step. -/
def Obligations.IdleTicksFreezeAWaitingEngine : Prop :=
  ∀ (s : State) (x : Reg) (n : Nat) (k : Byte), s.running → s.waitKey = some x → k.toNat ≤ 15 →
    ∃ t u, idleTicks n s = .next t ∧ ChangesOnly (Among [.key]) s t ∧
      t.tick (some k) = .next u ∧ u.reg x = k ∧ u.key = k ∧ u.waitingKey = false ∧
      ChangesOnly (Among [.key, .waitKey, .reg x]) t u

/-! ### Index register and memory (spec 44, spec 20) -/

/-- R160: I is then inside RAM. -/
def Obligations.LoadIndexWritesI : Prop :=
  RowDecodes 0xF000 0xA000 (fun w => .ldIndex (arithNNN w)) ∧
  ∀ (nnn : Addr) (s : State), ∃ t, exec (.ldIndex nnn) s = .next t ∧
    t.i.toNat = nnn.toNat ∧ t.i.toNat < 4096 ∧ t.pc = s.pc + 2 ∧ ChangesOnly (Among [.pc, .index]) s t

/-- R161 (with x = 0xF as decision D4 has it): the carry of the 16-bit sum to VF on every execution, then the sum to I. -/
def Obligations.AddIndexSetsCarryThenSum : Prop :=
  ∀ (x : Reg) (s : State) (c : Nat), c = (if s.i.toNat + (s.reg x).toNat > 65535 then 1 else 0) →
    ∃ t, exec (.addIndex x) s = .next t ∧ (t.reg VF).toNat = c ∧
      (x ≠ VF → t.i.toNat = (s.i.toNat + (s.reg x).toNat) % 65536) ∧
      (x = VF → t.i.toNat = (s.i.toNat + c) % 65536) ∧ t.pc = s.pc + 2 ∧
      ChangesOnly (Among [.pc, .index, .reg VF]) s t

/-- R162: the glyph address for the low digit of Vx; RAM is not read. -/
def Obligations.LoadFontPointsIAtTheGlyph : Prop :=
  RowDecodes 0xF0FF 0xF029 (fun w => .ldFont (arithX w)) ∧
  ∀ (x : Reg) (s : State), ∃ t, exec (.ldFont x) s = .next t ∧
    t.i.toNat = 0x050 + (s.reg x).toNat % 16 * 5 ∧ t.pc = s.pc + 2 ∧ ChangesOnly (Among [.pc, .index]) s t

/-- R163, R58 (the form of the fault is decisions D11 and D12): hundreds, tens and units at I, I+1 and I+2, or the fault
at the highest address, which is accessed first. -/
def Obligations.BcdStoresThreeDigits : Prop :=
  ∀ (x : Reg) (s : State),
    (s.i.toNat + 2 ≤ 4095 → ∃ t, exec (.ldBcd x) s = .next t ∧
      (t.readByte s.i.toNat).toNat = (s.reg x).toNat / 100 ∧
      (t.readByte (s.i.toNat + 1)).toNat = (s.reg x).toNat / 10 % 10 ∧
      (t.readByte (s.i.toNat + 2)).toNat = (s.reg x).toNat % 10 ∧ t.pc = s.pc + 2 ∧
      ChangesOnly (Among [.pc, .ram s.i.toNat, .ram (s.i.toNat + 1), .ram (s.i.toNat + 2)]) s t) ∧
    (4096 ≤ s.i.toNat + 2 → FaultsWith (.ldBcd x) s (.memOutOfRange (s.i.toNat + 2)))

/-- R164, R58, R166 (the form of the fault is decisions D11 and D12): exactly V0 to V(x-1) are stored from I up, nothing
else changes; x = 0 stores nothing whatever I is; else the fault names the first address outside RAM. -/
def Obligations.StoreRegsStoresTheFirstX : Prop :=
  ∀ (x : Reg) (s : State),
    (x.val = 0 ∨ s.i.toNat + x.val ≤ 4096 → ∃ t, exec (.storeRegs x) s = .next t ∧
      (∀ r : Reg, r.val < x.val → t.readByte (s.i.toNat + r.val) = s.reg r) ∧ t.pc = s.pc + 2 ∧
      ChangesOnly (fun p => p = .pc ∨ ∃ k, k < x.val ∧ p = .ram (s.i.toNat + k)) s t) ∧
    (0 < x.val → 4096 < s.i.toNat + x.val → FaultsWith (.storeRegs x) s (.memOutOfRange (max s.i.toNat 4096)))

/-- R165, R58, R166 (the form of the fault is decisions D11 and D12): exactly V0 to V(x-1) are loaded from I up, nothing
else changes; x = 0 loads nothing whatever I is; else the fault names the first address outside RAM. -/
def Obligations.LoadRegsLoadsTheFirstX : Prop :=
  ∀ (x : Reg) (s : State),
    (x.val = 0 ∨ s.i.toNat + x.val ≤ 4096 → ∃ t, exec (.loadRegs x) s = .next t ∧
      (∀ r : Reg, r.val < x.val → t.reg r = s.readByte (s.i.toNat + r.val)) ∧ t.pc = s.pc + 2 ∧
      ChangesOnly (fun p => p = .pc ∨ ∃ r : Reg, r.val < x.val ∧ p = .reg r) s t) ∧
    (0 < x.val → 4096 < s.i.toNat + x.val → FaultsWith (.loadRegs x) s (.memOutOfRange (max s.i.toNat 4096)))

/-- R164 and R165 together: registers stored and loaded again, from any later state with the same I and RAM, come back. -/
def Obligations.StoredRegsLoadBack : Prop :=
  ∀ (x : Reg) (s : State), s.i.toNat + x.val ≤ 4096 → ∃ t, exec (.storeRegs x) s = .next t ∧
    ∀ t' : State, t'.i = t.i → t'.ram = t.ram → ∃ u, exec (.loadRegs x) t' = .next u ∧
      ∀ r : Reg, u.reg r = if r.val < x.val then s.reg r else t'.reg r

/-- R63, R241 (an inference the spec marks as its own), R51: a store to the next instruction's two bytes is what the next
fetch reads, the byte at the lower address high. -/
def Obligations.StoreIsSeenByTheNextFetch : Prop :=
  ∀ (x : Reg) (s : State), s.i.toNat = s.pc.toNat + 2 → s.i.toNat + x.val ≤ 4096 → 2 ≤ x.val →
    ∃ t w, exec (.storeRegs x) s = .next t ∧ t.fetch = some w ∧ w.toNat = (s.reg 0).toNat * 256 + (s.reg 1).toNat

/-! ### Random (spec 45) -/

/-- R180 (that the draws are the bytes of `Config.randomByte` counted by `free` is the model's choice for decision D18, logs 3
and 4): one byte is drawn, whatever it is, and Vx is that byte AND nn; the bits of Vx where nn has a 0 are 0. -/
def Obligations.RandomIsOneDrawnByteMasked : Prop :=
  RowDecodes 0xF000 0xC000 (fun w => .rnd (arithX w) (arithNN w)) ∧
  ∀ (x : Reg) (nn : Byte) (s : State), ∃ t, exec (.rnd x nn) s = .next t ∧
    t.reg x = Config.randomByte s.free &&& nn ∧ (∀ k, nn.getLsbD k = false → (t.reg x).getLsbD k = false) ∧
    t.free = s.free + 1 ∧ t.pc = s.pc + 2 ∧ ChangesOnly (fun p => p = .pc ∨ p = .free ∨ p = .reg x) s t

/-! ### Display (spec 46) -/

/-- R185: every cell off, VF not written, and a second `CLS` changes no cell. -/
def Obligations.ClsTurnsEveryCellOff : Prop :=
  RowDecodes 0xFFFF 0x00E0 (fun _ => .cls) ∧
  ∀ s : State, ∃ t u, exec .cls s = .next t ∧ (∀ xx yy, t.pixel xx yy = false) ∧ t.pc = s.pc + 2 ∧
    ChangesOnly (fun p => p = .pc ∨ ∃ xx yy, p = .cell xx yy) s t ∧
    exec .cls t = .next u ∧ u.pc = t.pc + 2 ∧ ChangesOnly (Among [.pc]) t u

/-- R187, R186 (the form of the fault is decisions D11 and D12, the natural-number coordinates are decision D17, log
26): the n bytes at I are XORed into the display with their corner at column Vx, row Vy as they were before VF is
written (VF may be a coordinate), VF tells the collision, and nothing else changes; n = 0 draws nothing, clears VF and
cannot fault. -/
def Obligations.DrawXorsTheSprite : Prop :=
  ∀ (x y : Reg) (n : Nat) (s : State),
    (n = 0 ∨ s.i.toNat + n ≤ 4096 → ∃ t, exec (.drw x y n) s = .next t ∧
      (∀ xx yy, xx < 64 → yy < 32 → t.pixel xx yy =
        (s.pixel xx yy ^^ covers (s.sprite n) (s.reg x).toNat (s.reg y).toNat xx yy)) ∧
      (t.reg VF = 0 ∨ t.reg VF = 1) ∧
      (t.reg VF = 1 ↔ ∃ xx yy, s.pixel xx yy = true ∧
        covers (s.sprite n) (s.reg x).toNat (s.reg y).toNat xx yy = true) ∧
      t.pc = s.pc + 2 ∧ ChangesOnly (fun p => p = .pc ∨ p = .reg VF ∨ ∃ xx yy, p = .cell xx yy) s t) ∧
    (0 < n → 4096 < s.i.toNat + n → FaultsWith (.drw x y n) s (.memOutOfRange (max s.i.toNat 4096)))

/-- R189 (that the target of a pair is Vx + c and Vy + r as naturals is decision D17, log 26, DESIGN CHOICE, unsafe): after a
draw VF is 0 or 1, and 1 iff some pair (r, c) has its target in bounds, its sprite bit 1 and its cell on before the draw; the
cell of every such pair is off after it; equally iff at least one cell that was on is off. -/
def Obligations.CollisionMeansALitCellWentOff : Prop :=
  ∀ (x y : Reg) (n : Nat) (s t : State), n = 0 ∨ s.i.toNat + n ≤ 4096 → exec (.drw x y n) s = .next t →
    (t.reg VF = 0 ∨ t.reg VF = 1) ∧
    (t.reg VF = 1 ↔ ∃ r c, r < n ∧ c < 8 ∧ (s.reg x).toNat + c < 64 ∧ (s.reg y).toNat + r < 32 ∧
      (s.readByte (s.i.toNat + r)).getLsbD (7 - c) = true ∧
      s.pixel ((s.reg x).toNat + c) ((s.reg y).toNat + r) = true) ∧
    (∀ r c, r < n → c < 8 → (s.reg x).toNat + c < 64 → (s.reg y).toNat + r < 32 →
      (s.readByte (s.i.toNat + r)).getLsbD (7 - c) = true →
      s.pixel ((s.reg x).toNat + c) ((s.reg y).toNat + r) = true →
      t.pixel ((s.reg x).toNat + c) ((s.reg y).toNat + r) = false) ∧
    (t.reg VF = 1 ↔ ∃ xx yy, s.pixel xx yy = true ∧ t.pixel xx yy = false)

/-- R188 (the natural-number coordinates are decision D17): with Vx of 64 or more, or Vy of 32 or more, no cell changes and
VF is 0; and no draw changes a cell outside the sprite's eight columns and n rows, so nothing reappears elsewhere. -/
def Obligations.ClippedPixelsAreDropped : Prop :=
  ∀ (x y : Reg) (n : Nat) (s : State), n = 0 ∨ s.i.toNat + n ≤ 4096 → ∃ t, exec (.drw x y n) s = .next t ∧
    (64 ≤ (s.reg x).toNat ∨ 32 ≤ (s.reg y).toNat → t.reg VF = 0 ∧ ∀ xx yy, t.pixel xx yy = s.pixel xx yy) ∧
    (∀ xx yy, xx < (s.reg x).toNat ∨ (s.reg x).toNat + 8 ≤ xx ∨ yy < (s.reg y).toNat ∨ (s.reg y).toNat + n ≤ yy →
      t.pixel xx yy = s.pixel xx yy)

/-- R190: drawing the same sprite at the same coordinates twice restores every cell, and the second draw collides iff the
first turned a cell on (this iff is an inference the spec marks as its own). The coordinates, naturals by decision D17
(log 26), are the same when the first draw's flag left them so, which it does whenever neither is VF. -/
def Obligations.DrawingTwiceRestoresTheDisplay : Prop :=
  ∀ (x y : Reg) (n : Nat) (s : State), n = 0 ∨ s.i.toNat + n ≤ 4096 → ∃ t, exec (.drw x y n) s = .next t ∧
    (x ≠ VF → y ≠ VF → t.reg x = s.reg x ∧ t.reg y = s.reg y) ∧
    (t.reg x = s.reg x → t.reg y = s.reg y → ∃ u, exec (.drw x y n) t = .next u ∧
      (∀ xx yy, u.pixel xx yy = s.pixel xx yy) ∧
      (u.reg VF = 1 ↔ ∃ xx yy, s.pixel xx yy = false ∧ t.pixel xx yy = true))
end

