-- ==== Sys2Proof/Laws/Decode.lean ====
section
/-! SUPPORT. The fields and the selector bits of an encoded word, and why two rows of the decode table cannot both select
a word. -/

namespace Sys2Proof

/-- Two rows that select one word agree on every bit both of them test. -/
theorem DecodeRow.agree_of_selects {r q : DecodeRow} {w : Word} (hr : r.selects w = true) (hq : q.selects w = true) :
    r.value &&& q.mask = q.value &&& r.mask := by
  simp only [DecodeRow.selects, beq_iff_eq] at hr hq
  rw [← hr, ← hq, BitVec.and_assoc, BitVec.and_assoc, BitVec.and_comm r.mask]

/-- A placed nibble bit by bit. -/
@[simp] theorem nibbleAt_getElem (bit : Nat) (v : BitVec 4) (k : Nat) (hk : k < 16) :
    (nibbleAt bit v)[k] = (decide (bit ≤ k) && v.getLsbD (k - bit)) := by
  by_cases hb : bit ≤ k <;> simp [nibbleAt, hb]

/-! ### The selector bits of the formats -/

theorem formNNN_and (op : BitVec 4) (nnn : Addr) : formNNN op nnn &&& (0xF000 : Word) = nibbleAt 12 op := by
  refine BitVec.eq_of_getLsbD_eq fun k hk => ?_
  interval_cases k <;> simp [formNNN]

theorem formXNN_and (op : BitVec 4) (x : Reg) (nn : Byte) : formXNN op x nn &&& (0xF000 : Word) = nibbleAt 12 op := by
  refine BitVec.eq_of_getLsbD_eq fun k hk => ?_
  interval_cases k <;> simp [formXNN]

theorem formXY_and (op : BitVec 4) (x y : Reg) (sub : BitVec 4) :
    formXY op x y sub &&& (0xF00F : Word) = nibbleAt 12 op ||| nibbleAt 0 sub := by
  refine BitVec.eq_of_getLsbD_eq fun k hk => ?_
  interval_cases k <;> simp [formXY]

theorem formXYN_and (op : BitVec 4) (x y : Reg) (n : BitVec 4) : formXY op x y n &&& (0xF000 : Word) = nibbleAt 12 op := by
  refine BitVec.eq_of_getLsbD_eq fun k hk => ?_
  interval_cases k <;> simp [formXY]

theorem formX_and (op : BitVec 4) (x : Reg) (sub : Byte) :
    formX op x sub &&& (0xF0FF : Word) = nibbleAt 12 op ||| sub.setWidth 16 := by
  refine BitVec.eq_of_getLsbD_eq fun k hk => ?_
  interval_cases k <;> simp [formX]

/-! ### The fields of the formats -/

@[simp] theorem fieldNNN_formNNN (op : BitVec 4) (nnn : Addr) : fieldNNN (formNNN op nnn) = nnn := by
  refine BitVec.eq_of_getLsbD_eq fun k hk => ?_
  interval_cases k <;> simp [fieldNNN, formNNN]

@[simp] theorem fieldNN_formXNN (op : BitVec 4) (x : Reg) (nn : Byte) : fieldNN (formXNN op x nn) = nn := by
  refine BitVec.eq_of_getLsbD_eq fun k hk => ?_
  interval_cases k <;> simp [fieldNN, formXNN]

@[simp] theorem fieldX_formXNN (op : BitVec 4) (x : Reg) (nn : Byte) : fieldX (formXNN op x nn) = x := by
  have e : (formXNN op x nn).extractLsb' 8 4 = regNibble x := by
    refine BitVec.eq_of_getLsbD_eq fun k hk => ?_
    interval_cases k <;> simp [formXNN]
  rw [fieldX, e, regNibble]

@[simp] theorem fieldX_formX (op : BitVec 4) (x : Reg) (sub : Byte) : fieldX (formX op x sub) = x :=
  fieldX_formXNN op x sub

@[simp] theorem fieldX_formXY (op : BitVec 4) (x y : Reg) (sub : BitVec 4) : fieldX (formXY op x y sub) = x := by
  have e : (formXY op x y sub).extractLsb' 8 4 = regNibble x := by
    refine BitVec.eq_of_getLsbD_eq fun k hk => ?_
    interval_cases k <;> simp [formXY]
  rw [fieldX, e, regNibble]

@[simp] theorem fieldY_formXY (op : BitVec 4) (x y : Reg) (sub : BitVec 4) : fieldY (formXY op x y sub) = y := by
  have e : (formXY op x y sub).extractLsb' 4 4 = regNibble y := by
    refine BitVec.eq_of_getLsbD_eq fun k hk => ?_
    interval_cases k <;> simp [formXY]
  rw [fieldY, e, regNibble]

@[simp] theorem fieldN_formXY (op : BitVec 4) (x y : Reg) (n : BitVec 4) : fieldN (formXY op x y n) = n.toNat := by
  have e : (formXY op x y n).extractLsb' 0 4 = n := by
    refine BitVec.eq_of_getLsbD_eq fun k hk => ?_
    interval_cases k <;> simp [formXY]
  rw [fieldN, e]

/-- A word is put together again from its two bytes. -/
@[simp] theorem wordOfBytes_high_low (w : Word) : wordOfBytes (highByte w) (lowByte w) = w := by
  refine BitVec.eq_of_getLsbD_eq fun k hk => ?_
  interval_cases k <;> simp [wordOfBytes, highByte, lowByte]

/-! ### A word is put together again from its selector bits and its fields -/

theorem formNNN_field (op : BitVec 4) {w : Word} (h : w &&& 0xF000 = nibbleAt 12 op) : formNNN op (fieldNNN w) = w := by
  rw [formNNN, ← h]
  refine BitVec.eq_of_getLsbD_eq fun k hk => ?_
  interval_cases k <;> simp [fieldNNN]

theorem regNibble_fieldX (w : Word) : regNibble (fieldX w) = w.extractLsb' 8 4 := rfl
theorem regNibble_fieldY (w : Word) : regNibble (fieldY w) = w.extractLsb' 4 4 := rfl
theorem ofNat_fieldN (w : Word) : BitVec.ofNat 4 (fieldN w) = w.extractLsb' 0 4 := by
  rw [fieldN, BitVec.ofNat_toNat, BitVec.setWidth_eq]

theorem formXNN_field (op : BitVec 4) {w : Word} (h : w &&& 0xF000 = nibbleAt 12 op) :
    formXNN op (fieldX w) (fieldNN w) = w := by
  rw [formXNN, ← h, regNibble_fieldX]
  refine BitVec.eq_of_getLsbD_eq fun k hk => ?_
  interval_cases k <;> simp [fieldNN]

theorem formXYN_field (op : BitVec 4) {w : Word} (h : w &&& 0xF000 = nibbleAt 12 op) :
    formXY op (fieldX w) (fieldY w) (BitVec.ofNat 4 (fieldN w)) = w := by
  rw [formXY, ← h, regNibble_fieldX, regNibble_fieldY, ofNat_fieldN]
  refine BitVec.eq_of_getLsbD_eq fun k hk => ?_
  interval_cases k <;> simp

theorem formXY_field (op sub : BitVec 4) {w : Word} (h : w &&& 0xF00F = nibbleAt 12 op ||| nibbleAt 0 sub) :
    formXY op (fieldX w) (fieldY w) sub = w := by
  have e : ∀ a b c d : Word, a ||| b ||| c ||| d = (a ||| d) ||| (b ||| c) := by
    intro a b c d; ac_rfl
  rw [formXY, e, ← h, regNibble_fieldX, regNibble_fieldY]
  refine BitVec.eq_of_getLsbD_eq fun k hk => ?_
  interval_cases k <;> simp

theorem formX_field (op : BitVec 4) (sub : Byte) {w : Word} (h : w &&& 0xF0FF = nibbleAt 12 op ||| sub.setWidth 16) :
    formX op (fieldX w) sub = w := by
  have e : ∀ a b c : Word, a ||| b ||| c = (a ||| c) ||| b := by
    intro a b c; ac_rfl
  rw [formX, e, ← h, regNibble_fieldX]
  refine BitVec.eq_of_getLsbD_eq fun k hk => ?_
  interval_cases k <;> simp

end Sys2Proof
end

