-- ==== Sys2Proof/Laws/State.lean ====
section
/-! SUPPORT. For each update of the state, what every field and every view (`reg`, `readByte`, `pixel`) is after it. -/

namespace Sys2Proof.Machine

/-! ### setReg -/

@[simp] theorem State.setReg_v (s : State) (r : Reg) (b : Byte) : (s.setReg r b).v = s.v.set r.val b := rfl
@[simp] theorem State.setReg_i (s : State) (r : Reg) (b : Byte) : (s.setReg r b).i = s.i := rfl
@[simp] theorem State.setReg_pc (s : State) (r : Reg) (b : Byte) : (s.setReg r b).pc = s.pc := rfl
@[simp] theorem State.setReg_stack (s : State) (r : Reg) (b : Byte) : (s.setReg r b).stack = s.stack := rfl
@[simp] theorem State.setReg_sp (s : State) (r : Reg) (b : Byte) : (s.setReg r b).sp = s.sp := rfl
@[simp] theorem State.setReg_dt (s : State) (r : Reg) (b : Byte) : (s.setReg r b).dt = s.dt := rfl
@[simp] theorem State.setReg_st (s : State) (r : Reg) (b : Byte) : (s.setReg r b).st = s.st := rfl
@[simp] theorem State.setReg_key (s : State) (r : Reg) (b : Byte) : (s.setReg r b).key = s.key := rfl
@[simp] theorem State.setReg_waitKey (s : State) (r : Reg) (b : Byte) : (s.setReg r b).waitKey = s.waitKey := rfl
@[simp] theorem State.setReg_halted (s : State) (r : Reg) (b : Byte) : (s.setReg r b).halted = s.halted := rfl
@[simp] theorem State.setReg_record (s : State) (r : Reg) (b : Byte) : (s.setReg r b).record = s.record := rfl
@[simp] theorem State.setReg_ram (s : State) (r : Reg) (b : Byte) : (s.setReg r b).ram = s.ram := rfl
@[simp] theorem State.setReg_disp (s : State) (r : Reg) (b : Byte) : (s.setReg r b).disp = s.disp := rfl
@[simp] theorem State.setReg_free (s : State) (r : Reg) (b : Byte) : (s.setReg r b).free = s.free := rfl
@[simp] theorem State.setReg_reg (s : State) (r : Reg) (b : Byte) (q : Reg) :
    (s.setReg r b).reg q = if r = q then b else s.reg q := by
  simp [State.reg, Vector.getElem_set, Fin.ext_iff]
@[simp] theorem State.setReg_readByte (s : State) (r : Reg) (b : Byte) (a : Nat) : (s.setReg r b).readByte a = s.readByte a := rfl
@[simp] theorem State.setReg_pixel (s : State) (r : Reg) (b : Byte) (xx yy : Nat) : (s.setReg r b).pixel xx yy = s.pixel xx yy := rfl

/-! ### setIndex -/

@[simp] theorem State.setIndex_v (s : State) (w : Word) : (s.setIndex w).v = s.v := rfl
@[simp] theorem State.setIndex_i (s : State) (w : Word) : (s.setIndex w).i = w := rfl
@[simp] theorem State.setIndex_pc (s : State) (w : Word) : (s.setIndex w).pc = s.pc := rfl
@[simp] theorem State.setIndex_stack (s : State) (w : Word) : (s.setIndex w).stack = s.stack := rfl
@[simp] theorem State.setIndex_sp (s : State) (w : Word) : (s.setIndex w).sp = s.sp := rfl
@[simp] theorem State.setIndex_dt (s : State) (w : Word) : (s.setIndex w).dt = s.dt := rfl
@[simp] theorem State.setIndex_st (s : State) (w : Word) : (s.setIndex w).st = s.st := rfl
@[simp] theorem State.setIndex_key (s : State) (w : Word) : (s.setIndex w).key = s.key := rfl
@[simp] theorem State.setIndex_waitKey (s : State) (w : Word) : (s.setIndex w).waitKey = s.waitKey := rfl
@[simp] theorem State.setIndex_halted (s : State) (w : Word) : (s.setIndex w).halted = s.halted := rfl
@[simp] theorem State.setIndex_record (s : State) (w : Word) : (s.setIndex w).record = s.record := rfl
@[simp] theorem State.setIndex_ram (s : State) (w : Word) : (s.setIndex w).ram = s.ram := rfl
@[simp] theorem State.setIndex_disp (s : State) (w : Word) : (s.setIndex w).disp = s.disp := rfl
@[simp] theorem State.setIndex_free (s : State) (w : Word) : (s.setIndex w).free = s.free := rfl
@[simp] theorem State.setIndex_reg (s : State) (w : Word) (q : Reg) : (s.setIndex w).reg q = s.reg q := rfl
@[simp] theorem State.setIndex_readByte (s : State) (w : Word) (a : Nat) : (s.setIndex w).readByte a = s.readByte a := rfl
@[simp] theorem State.setIndex_pixel (s : State) (w : Word) (xx yy : Nat) : (s.setIndex w).pixel xx yy = s.pixel xx yy := rfl

/-! ### setPc -/

@[simp] theorem State.setPc_v (s : State) (w : Word) : (s.setPc w).v = s.v := rfl
@[simp] theorem State.setPc_i (s : State) (w : Word) : (s.setPc w).i = s.i := rfl
@[simp] theorem State.setPc_pc (s : State) (w : Word) : (s.setPc w).pc = w := rfl
@[simp] theorem State.setPc_stack (s : State) (w : Word) : (s.setPc w).stack = s.stack := rfl
@[simp] theorem State.setPc_sp (s : State) (w : Word) : (s.setPc w).sp = s.sp := rfl
@[simp] theorem State.setPc_dt (s : State) (w : Word) : (s.setPc w).dt = s.dt := rfl
@[simp] theorem State.setPc_st (s : State) (w : Word) : (s.setPc w).st = s.st := rfl
@[simp] theorem State.setPc_key (s : State) (w : Word) : (s.setPc w).key = s.key := rfl
@[simp] theorem State.setPc_waitKey (s : State) (w : Word) : (s.setPc w).waitKey = s.waitKey := rfl
@[simp] theorem State.setPc_halted (s : State) (w : Word) : (s.setPc w).halted = s.halted := rfl
@[simp] theorem State.setPc_record (s : State) (w : Word) : (s.setPc w).record = s.record := rfl
@[simp] theorem State.setPc_ram (s : State) (w : Word) : (s.setPc w).ram = s.ram := rfl
@[simp] theorem State.setPc_disp (s : State) (w : Word) : (s.setPc w).disp = s.disp := rfl
@[simp] theorem State.setPc_free (s : State) (w : Word) : (s.setPc w).free = s.free := rfl
@[simp] theorem State.setPc_reg (s : State) (w : Word) (q : Reg) : (s.setPc w).reg q = s.reg q := rfl
@[simp] theorem State.setPc_readByte (s : State) (w : Word) (a : Nat) : (s.setPc w).readByte a = s.readByte a := rfl
@[simp] theorem State.setPc_pixel (s : State) (w : Word) (xx yy : Nat) : (s.setPc w).pixel xx yy = s.pixel xx yy := rfl

/-! ### setDt -/

@[simp] theorem State.setDt_v (s : State) (b : Byte) : (s.setDt b).v = s.v := rfl
@[simp] theorem State.setDt_i (s : State) (b : Byte) : (s.setDt b).i = s.i := rfl
@[simp] theorem State.setDt_pc (s : State) (b : Byte) : (s.setDt b).pc = s.pc := rfl
@[simp] theorem State.setDt_stack (s : State) (b : Byte) : (s.setDt b).stack = s.stack := rfl
@[simp] theorem State.setDt_sp (s : State) (b : Byte) : (s.setDt b).sp = s.sp := rfl
@[simp] theorem State.setDt_dt (s : State) (b : Byte) : (s.setDt b).dt = b := rfl
@[simp] theorem State.setDt_st (s : State) (b : Byte) : (s.setDt b).st = s.st := rfl
@[simp] theorem State.setDt_key (s : State) (b : Byte) : (s.setDt b).key = s.key := rfl
@[simp] theorem State.setDt_waitKey (s : State) (b : Byte) : (s.setDt b).waitKey = s.waitKey := rfl
@[simp] theorem State.setDt_halted (s : State) (b : Byte) : (s.setDt b).halted = s.halted := rfl
@[simp] theorem State.setDt_record (s : State) (b : Byte) : (s.setDt b).record = s.record := rfl
@[simp] theorem State.setDt_ram (s : State) (b : Byte) : (s.setDt b).ram = s.ram := rfl
@[simp] theorem State.setDt_disp (s : State) (b : Byte) : (s.setDt b).disp = s.disp := rfl
@[simp] theorem State.setDt_free (s : State) (b : Byte) : (s.setDt b).free = s.free := rfl
@[simp] theorem State.setDt_reg (s : State) (b : Byte) (q : Reg) : (s.setDt b).reg q = s.reg q := rfl
@[simp] theorem State.setDt_readByte (s : State) (b : Byte) (a : Nat) : (s.setDt b).readByte a = s.readByte a := rfl
@[simp] theorem State.setDt_pixel (s : State) (b : Byte) (xx yy : Nat) : (s.setDt b).pixel xx yy = s.pixel xx yy := rfl

/-! ### setSt -/

@[simp] theorem State.setSt_v (s : State) (b : Byte) : (s.setSt b).v = s.v := rfl
@[simp] theorem State.setSt_i (s : State) (b : Byte) : (s.setSt b).i = s.i := rfl
@[simp] theorem State.setSt_pc (s : State) (b : Byte) : (s.setSt b).pc = s.pc := rfl
@[simp] theorem State.setSt_stack (s : State) (b : Byte) : (s.setSt b).stack = s.stack := rfl
@[simp] theorem State.setSt_sp (s : State) (b : Byte) : (s.setSt b).sp = s.sp := rfl
@[simp] theorem State.setSt_dt (s : State) (b : Byte) : (s.setSt b).dt = s.dt := rfl
@[simp] theorem State.setSt_st (s : State) (b : Byte) : (s.setSt b).st = b := rfl
@[simp] theorem State.setSt_key (s : State) (b : Byte) : (s.setSt b).key = s.key := rfl
@[simp] theorem State.setSt_waitKey (s : State) (b : Byte) : (s.setSt b).waitKey = s.waitKey := rfl
@[simp] theorem State.setSt_halted (s : State) (b : Byte) : (s.setSt b).halted = s.halted := rfl
@[simp] theorem State.setSt_record (s : State) (b : Byte) : (s.setSt b).record = s.record := rfl
@[simp] theorem State.setSt_ram (s : State) (b : Byte) : (s.setSt b).ram = s.ram := rfl
@[simp] theorem State.setSt_disp (s : State) (b : Byte) : (s.setSt b).disp = s.disp := rfl
@[simp] theorem State.setSt_free (s : State) (b : Byte) : (s.setSt b).free = s.free := rfl
@[simp] theorem State.setSt_reg (s : State) (b : Byte) (q : Reg) : (s.setSt b).reg q = s.reg q := rfl
@[simp] theorem State.setSt_readByte (s : State) (b : Byte) (a : Nat) : (s.setSt b).readByte a = s.readByte a := rfl
@[simp] theorem State.setSt_pixel (s : State) (b : Byte) (xx yy : Nat) : (s.setSt b).pixel xx yy = s.pixel xx yy := rfl

/-! ### setKey -/

@[simp] theorem State.setKey_v (s : State) (b : Byte) : (s.setKey b).v = s.v := rfl
@[simp] theorem State.setKey_i (s : State) (b : Byte) : (s.setKey b).i = s.i := rfl
@[simp] theorem State.setKey_pc (s : State) (b : Byte) : (s.setKey b).pc = s.pc := rfl
@[simp] theorem State.setKey_stack (s : State) (b : Byte) : (s.setKey b).stack = s.stack := rfl
@[simp] theorem State.setKey_sp (s : State) (b : Byte) : (s.setKey b).sp = s.sp := rfl
@[simp] theorem State.setKey_dt (s : State) (b : Byte) : (s.setKey b).dt = s.dt := rfl
@[simp] theorem State.setKey_st (s : State) (b : Byte) : (s.setKey b).st = s.st := rfl
@[simp] theorem State.setKey_key (s : State) (b : Byte) : (s.setKey b).key = b := rfl
@[simp] theorem State.setKey_waitKey (s : State) (b : Byte) : (s.setKey b).waitKey = s.waitKey := rfl
@[simp] theorem State.setKey_halted (s : State) (b : Byte) : (s.setKey b).halted = s.halted := rfl
@[simp] theorem State.setKey_record (s : State) (b : Byte) : (s.setKey b).record = s.record := rfl
@[simp] theorem State.setKey_ram (s : State) (b : Byte) : (s.setKey b).ram = s.ram := rfl
@[simp] theorem State.setKey_disp (s : State) (b : Byte) : (s.setKey b).disp = s.disp := rfl
@[simp] theorem State.setKey_free (s : State) (b : Byte) : (s.setKey b).free = s.free := rfl
@[simp] theorem State.setKey_reg (s : State) (b : Byte) (q : Reg) : (s.setKey b).reg q = s.reg q := rfl
@[simp] theorem State.setKey_readByte (s : State) (b : Byte) (a : Nat) : (s.setKey b).readByte a = s.readByte a := rfl
@[simp] theorem State.setKey_pixel (s : State) (b : Byte) (xx yy : Nat) : (s.setKey b).pixel xx yy = s.pixel xx yy := rfl

/-! ### setWaitKey -/

@[simp] theorem State.setWaitKey_v (s : State) (r : Option Reg) : (s.setWaitKey r).v = s.v := rfl
@[simp] theorem State.setWaitKey_i (s : State) (r : Option Reg) : (s.setWaitKey r).i = s.i := rfl
@[simp] theorem State.setWaitKey_pc (s : State) (r : Option Reg) : (s.setWaitKey r).pc = s.pc := rfl
@[simp] theorem State.setWaitKey_stack (s : State) (r : Option Reg) : (s.setWaitKey r).stack = s.stack := rfl
@[simp] theorem State.setWaitKey_sp (s : State) (r : Option Reg) : (s.setWaitKey r).sp = s.sp := rfl
@[simp] theorem State.setWaitKey_dt (s : State) (r : Option Reg) : (s.setWaitKey r).dt = s.dt := rfl
@[simp] theorem State.setWaitKey_st (s : State) (r : Option Reg) : (s.setWaitKey r).st = s.st := rfl
@[simp] theorem State.setWaitKey_key (s : State) (r : Option Reg) : (s.setWaitKey r).key = s.key := rfl
@[simp] theorem State.setWaitKey_waitKey (s : State) (r : Option Reg) : (s.setWaitKey r).waitKey = r := rfl
@[simp] theorem State.setWaitKey_halted (s : State) (r : Option Reg) : (s.setWaitKey r).halted = s.halted := rfl
@[simp] theorem State.setWaitKey_record (s : State) (r : Option Reg) : (s.setWaitKey r).record = s.record := rfl
@[simp] theorem State.setWaitKey_ram (s : State) (r : Option Reg) : (s.setWaitKey r).ram = s.ram := rfl
@[simp] theorem State.setWaitKey_disp (s : State) (r : Option Reg) : (s.setWaitKey r).disp = s.disp := rfl
@[simp] theorem State.setWaitKey_free (s : State) (r : Option Reg) : (s.setWaitKey r).free = s.free := rfl
@[simp] theorem State.setWaitKey_reg (s : State) (r : Option Reg) (q : Reg) : (s.setWaitKey r).reg q = s.reg q := rfl
@[simp] theorem State.setWaitKey_readByte (s : State) (r : Option Reg) (a : Nat) : (s.setWaitKey r).readByte a = s.readByte a := rfl
@[simp] theorem State.setWaitKey_pixel (s : State) (r : Option Reg) (xx yy : Nat) : (s.setWaitKey r).pixel xx yy = s.pixel xx yy := rfl

/-! ### setDisp -/

@[simp] theorem State.setDisp_v (s : State) (d : Display) : (s.setDisp d).v = s.v := rfl
@[simp] theorem State.setDisp_i (s : State) (d : Display) : (s.setDisp d).i = s.i := rfl
@[simp] theorem State.setDisp_pc (s : State) (d : Display) : (s.setDisp d).pc = s.pc := rfl
@[simp] theorem State.setDisp_stack (s : State) (d : Display) : (s.setDisp d).stack = s.stack := rfl
@[simp] theorem State.setDisp_sp (s : State) (d : Display) : (s.setDisp d).sp = s.sp := rfl
@[simp] theorem State.setDisp_dt (s : State) (d : Display) : (s.setDisp d).dt = s.dt := rfl
@[simp] theorem State.setDisp_st (s : State) (d : Display) : (s.setDisp d).st = s.st := rfl
@[simp] theorem State.setDisp_key (s : State) (d : Display) : (s.setDisp d).key = s.key := rfl
@[simp] theorem State.setDisp_waitKey (s : State) (d : Display) : (s.setDisp d).waitKey = s.waitKey := rfl
@[simp] theorem State.setDisp_halted (s : State) (d : Display) : (s.setDisp d).halted = s.halted := rfl
@[simp] theorem State.setDisp_record (s : State) (d : Display) : (s.setDisp d).record = s.record := rfl
@[simp] theorem State.setDisp_ram (s : State) (d : Display) : (s.setDisp d).ram = s.ram := rfl
@[simp] theorem State.setDisp_disp (s : State) (d : Display) : (s.setDisp d).disp = d := rfl
@[simp] theorem State.setDisp_free (s : State) (d : Display) : (s.setDisp d).free = s.free := rfl
@[simp] theorem State.setDisp_reg (s : State) (d : Display) (q : Reg) : (s.setDisp d).reg q = s.reg q := rfl
@[simp] theorem State.setDisp_readByte (s : State) (d : Display) (a : Nat) : (s.setDisp d).readByte a = s.readByte a := rfl

/-! ### setRam -/

@[simp] theorem State.setRam_v (s : State) (m : Memory) : (s.setRam m).v = s.v := rfl
@[simp] theorem State.setRam_i (s : State) (m : Memory) : (s.setRam m).i = s.i := rfl
@[simp] theorem State.setRam_pc (s : State) (m : Memory) : (s.setRam m).pc = s.pc := rfl
@[simp] theorem State.setRam_stack (s : State) (m : Memory) : (s.setRam m).stack = s.stack := rfl
@[simp] theorem State.setRam_sp (s : State) (m : Memory) : (s.setRam m).sp = s.sp := rfl
@[simp] theorem State.setRam_dt (s : State) (m : Memory) : (s.setRam m).dt = s.dt := rfl
@[simp] theorem State.setRam_st (s : State) (m : Memory) : (s.setRam m).st = s.st := rfl
@[simp] theorem State.setRam_key (s : State) (m : Memory) : (s.setRam m).key = s.key := rfl
@[simp] theorem State.setRam_waitKey (s : State) (m : Memory) : (s.setRam m).waitKey = s.waitKey := rfl
@[simp] theorem State.setRam_halted (s : State) (m : Memory) : (s.setRam m).halted = s.halted := rfl
@[simp] theorem State.setRam_record (s : State) (m : Memory) : (s.setRam m).record = s.record := rfl
@[simp] theorem State.setRam_ram (s : State) (m : Memory) : (s.setRam m).ram = m := rfl
@[simp] theorem State.setRam_disp (s : State) (m : Memory) : (s.setRam m).disp = s.disp := rfl
@[simp] theorem State.setRam_free (s : State) (m : Memory) : (s.setRam m).free = s.free := rfl
@[simp] theorem State.setRam_reg (s : State) (m : Memory) (q : Reg) : (s.setRam m).reg q = s.reg q := rfl
@[simp] theorem State.setRam_readByte (s : State) (m : Memory) (a : Nat) : (s.setRam m).readByte a = m.read a := rfl
@[simp] theorem State.setRam_pixel (s : State) (m : Memory) (xx yy : Nat) : (s.setRam m).pixel xx yy = s.pixel xx yy := rfl

/-! ### useFree -/

@[simp] theorem State.useFree_v (s : State) : (s.useFree).v = s.v := rfl
@[simp] theorem State.useFree_i (s : State) : (s.useFree).i = s.i := rfl
@[simp] theorem State.useFree_pc (s : State) : (s.useFree).pc = s.pc := rfl
@[simp] theorem State.useFree_stack (s : State) : (s.useFree).stack = s.stack := rfl
@[simp] theorem State.useFree_sp (s : State) : (s.useFree).sp = s.sp := rfl
@[simp] theorem State.useFree_dt (s : State) : (s.useFree).dt = s.dt := rfl
@[simp] theorem State.useFree_st (s : State) : (s.useFree).st = s.st := rfl
@[simp] theorem State.useFree_key (s : State) : (s.useFree).key = s.key := rfl
@[simp] theorem State.useFree_waitKey (s : State) : (s.useFree).waitKey = s.waitKey := rfl
@[simp] theorem State.useFree_halted (s : State) : (s.useFree).halted = s.halted := rfl
@[simp] theorem State.useFree_record (s : State) : (s.useFree).record = s.record := rfl
@[simp] theorem State.useFree_ram (s : State) : (s.useFree).ram = s.ram := rfl
@[simp] theorem State.useFree_disp (s : State) : (s.useFree).disp = s.disp := rfl
@[simp] theorem State.useFree_free (s : State) : (s.useFree).free = s.free + 1 := rfl
@[simp] theorem State.useFree_reg (s : State) (q : Reg) : (s.useFree).reg q = s.reg q := rfl
@[simp] theorem State.useFree_readByte (s : State) (a : Nat) : (s.useFree).readByte a = s.readByte a := rfl
@[simp] theorem State.useFree_pixel (s : State) (xx yy : Nat) : (s.useFree).pixel xx yy = s.pixel xx yy := rfl

/-! ### tickTimers -/

@[simp] theorem State.tickTimers_v (s : State) : (s.tickTimers).v = s.v := rfl
@[simp] theorem State.tickTimers_i (s : State) : (s.tickTimers).i = s.i := rfl
@[simp] theorem State.tickTimers_pc (s : State) : (s.tickTimers).pc = s.pc := rfl
@[simp] theorem State.tickTimers_stack (s : State) : (s.tickTimers).stack = s.stack := rfl
@[simp] theorem State.tickTimers_sp (s : State) : (s.tickTimers).sp = s.sp := rfl
@[simp] theorem State.tickTimers_dt (s : State) : (s.tickTimers).dt = countDown s.dt := rfl
@[simp] theorem State.tickTimers_st (s : State) : (s.tickTimers).st = countDown s.st := rfl
@[simp] theorem State.tickTimers_key (s : State) : (s.tickTimers).key = s.key := rfl
@[simp] theorem State.tickTimers_waitKey (s : State) : (s.tickTimers).waitKey = s.waitKey := rfl
@[simp] theorem State.tickTimers_halted (s : State) : (s.tickTimers).halted = s.halted := rfl
@[simp] theorem State.tickTimers_record (s : State) : (s.tickTimers).record = s.record := rfl
@[simp] theorem State.tickTimers_ram (s : State) : (s.tickTimers).ram = s.ram := rfl
@[simp] theorem State.tickTimers_disp (s : State) : (s.tickTimers).disp = s.disp := rfl
@[simp] theorem State.tickTimers_free (s : State) : (s.tickTimers).free = s.free := rfl
@[simp] theorem State.tickTimers_reg (s : State) (q : Reg) : (s.tickTimers).reg q = s.reg q := rfl
@[simp] theorem State.tickTimers_readByte (s : State) (a : Nat) : (s.tickTimers).readByte a = s.readByte a := rfl
@[simp] theorem State.tickTimers_pixel (s : State) (xx yy : Nat) : (s.tickTimers).pixel xx yy = s.pixel xx yy := rfl

/-! ### advance -/

@[simp] theorem State.advance_v (s : State) : (s.advance).v = s.v := rfl
@[simp] theorem State.advance_i (s : State) : (s.advance).i = s.i := rfl
@[simp] theorem State.advance_pc (s : State) : (s.advance).pc = s.pc + 2 := rfl
@[simp] theorem State.advance_stack (s : State) : (s.advance).stack = s.stack := rfl
@[simp] theorem State.advance_sp (s : State) : (s.advance).sp = s.sp := rfl
@[simp] theorem State.advance_dt (s : State) : (s.advance).dt = s.dt := rfl
@[simp] theorem State.advance_st (s : State) : (s.advance).st = s.st := rfl
@[simp] theorem State.advance_key (s : State) : (s.advance).key = s.key := rfl
@[simp] theorem State.advance_waitKey (s : State) : (s.advance).waitKey = s.waitKey := rfl
@[simp] theorem State.advance_halted (s : State) : (s.advance).halted = s.halted := rfl
@[simp] theorem State.advance_record (s : State) : (s.advance).record = s.record := rfl
@[simp] theorem State.advance_ram (s : State) : (s.advance).ram = s.ram := rfl
@[simp] theorem State.advance_disp (s : State) : (s.advance).disp = s.disp := rfl
@[simp] theorem State.advance_free (s : State) : (s.advance).free = s.free := rfl
@[simp] theorem State.advance_reg (s : State) (q : Reg) : (s.advance).reg q = s.reg q := rfl
@[simp] theorem State.advance_readByte (s : State) (a : Nat) : (s.advance).readByte a = s.readByte a := rfl
@[simp] theorem State.advance_pixel (s : State) (xx yy : Nat) : (s.advance).pixel xx yy = s.pixel xx yy := rfl

/-! ### skipIf -/

@[simp] theorem State.skipIf_v (s : State) (c : Bool) : (s.skipIf c).v = s.v := rfl
@[simp] theorem State.skipIf_i (s : State) (c : Bool) : (s.skipIf c).i = s.i := rfl
@[simp] theorem State.skipIf_pc (s : State) (c : Bool) : (s.skipIf c).pc = if c then s.pc + 4 else s.pc + 2 := rfl
@[simp] theorem State.skipIf_stack (s : State) (c : Bool) : (s.skipIf c).stack = s.stack := rfl
@[simp] theorem State.skipIf_sp (s : State) (c : Bool) : (s.skipIf c).sp = s.sp := rfl
@[simp] theorem State.skipIf_dt (s : State) (c : Bool) : (s.skipIf c).dt = s.dt := rfl
@[simp] theorem State.skipIf_st (s : State) (c : Bool) : (s.skipIf c).st = s.st := rfl
@[simp] theorem State.skipIf_key (s : State) (c : Bool) : (s.skipIf c).key = s.key := rfl
@[simp] theorem State.skipIf_waitKey (s : State) (c : Bool) : (s.skipIf c).waitKey = s.waitKey := rfl
@[simp] theorem State.skipIf_halted (s : State) (c : Bool) : (s.skipIf c).halted = s.halted := rfl
@[simp] theorem State.skipIf_record (s : State) (c : Bool) : (s.skipIf c).record = s.record := rfl
@[simp] theorem State.skipIf_ram (s : State) (c : Bool) : (s.skipIf c).ram = s.ram := rfl
@[simp] theorem State.skipIf_disp (s : State) (c : Bool) : (s.skipIf c).disp = s.disp := rfl
@[simp] theorem State.skipIf_free (s : State) (c : Bool) : (s.skipIf c).free = s.free := rfl
@[simp] theorem State.skipIf_reg (s : State) (c : Bool) (q : Reg) : (s.skipIf c).reg q = s.reg q := rfl
@[simp] theorem State.skipIf_readByte (s : State) (c : Bool) (a : Nat) : (s.skipIf c).readByte a = s.readByte a := rfl
@[simp] theorem State.skipIf_pixel (s : State) (c : Bool) (xx yy : Nat) : (s.skipIf c).pixel xx yy = s.pixel xx yy := rfl

/-! ### push -/

@[simp] theorem State.push_v (s : State) (w : Word) (room : s.sp.val < 16) : (s.push w room).v = s.v := rfl
@[simp] theorem State.push_i (s : State) (w : Word) (room : s.sp.val < 16) : (s.push w room).i = s.i := rfl
@[simp] theorem State.push_pc (s : State) (w : Word) (room : s.sp.val < 16) : (s.push w room).pc = s.pc := rfl
@[simp] theorem State.push_stack (s : State) (w : Word) (room : s.sp.val < 16) : (s.push w room).stack = s.stack.set s.sp.val w := rfl
@[simp] theorem State.push_sp (s : State) (w : Word) (room : s.sp.val < 16) : (s.push w room).sp = ⟨s.sp.val + 1, by omega⟩ := rfl
@[simp] theorem State.push_dt (s : State) (w : Word) (room : s.sp.val < 16) : (s.push w room).dt = s.dt := rfl
@[simp] theorem State.push_st (s : State) (w : Word) (room : s.sp.val < 16) : (s.push w room).st = s.st := rfl
@[simp] theorem State.push_key (s : State) (w : Word) (room : s.sp.val < 16) : (s.push w room).key = s.key := rfl
@[simp] theorem State.push_waitKey (s : State) (w : Word) (room : s.sp.val < 16) : (s.push w room).waitKey = s.waitKey := rfl
@[simp] theorem State.push_halted (s : State) (w : Word) (room : s.sp.val < 16) : (s.push w room).halted = s.halted := rfl
@[simp] theorem State.push_record (s : State) (w : Word) (room : s.sp.val < 16) : (s.push w room).record = s.record := rfl
@[simp] theorem State.push_ram (s : State) (w : Word) (room : s.sp.val < 16) : (s.push w room).ram = s.ram := rfl
@[simp] theorem State.push_disp (s : State) (w : Word) (room : s.sp.val < 16) : (s.push w room).disp = s.disp := rfl
@[simp] theorem State.push_free (s : State) (w : Word) (room : s.sp.val < 16) : (s.push w room).free = s.free := rfl
@[simp] theorem State.push_reg (s : State) (w : Word) (room : s.sp.val < 16) (q : Reg) : (s.push w room).reg q = s.reg q := rfl
@[simp] theorem State.push_readByte (s : State) (w : Word) (room : s.sp.val < 16) (a : Nat) : (s.push w room).readByte a = s.readByte a := rfl
@[simp] theorem State.push_pixel (s : State) (w : Word) (room : s.sp.val < 16) (xx yy : Nat) : (s.push w room).pixel xx yy = s.pixel xx yy := rfl

/-! ### pop -/

@[simp] theorem State.pop_v (s : State) : (s.pop).v = s.v := rfl
@[simp] theorem State.pop_i (s : State) : (s.pop).i = s.i := rfl
@[simp] theorem State.pop_pc (s : State) : (s.pop).pc = s.pc := rfl
@[simp] theorem State.pop_stack (s : State) : (s.pop).stack = s.stack := rfl
@[simp] theorem State.pop_sp (s : State) : (s.pop).sp = ⟨s.sp.val - 1, by omega⟩ := rfl
@[simp] theorem State.pop_dt (s : State) : (s.pop).dt = s.dt := rfl
@[simp] theorem State.pop_st (s : State) : (s.pop).st = s.st := rfl
@[simp] theorem State.pop_key (s : State) : (s.pop).key = s.key := rfl
@[simp] theorem State.pop_waitKey (s : State) : (s.pop).waitKey = s.waitKey := rfl
@[simp] theorem State.pop_halted (s : State) : (s.pop).halted = s.halted := rfl
@[simp] theorem State.pop_record (s : State) : (s.pop).record = s.record := rfl
@[simp] theorem State.pop_ram (s : State) : (s.pop).ram = s.ram := rfl
@[simp] theorem State.pop_disp (s : State) : (s.pop).disp = s.disp := rfl
@[simp] theorem State.pop_free (s : State) : (s.pop).free = s.free := rfl
@[simp] theorem State.pop_reg (s : State) (q : Reg) : (s.pop).reg q = s.reg q := rfl
@[simp] theorem State.pop_readByte (s : State) (a : Nat) : (s.pop).readByte a = s.readByte a := rfl
@[simp] theorem State.pop_pixel (s : State) (xx yy : Nat) : (s.pop).pixel xx yy = s.pixel xx yy := rfl

/-! ### The flag write and the register block -/

@[simp] theorem State.flagThenReg_reg (s : State) (f : Bool) (d : Reg) (g : State → Byte) (q : Reg) :
    (s.flagThenReg f d g).reg q =
      if d = q then g (s.setReg VF (flagByte f)) else if VF = q then flagByte f else s.reg q := by
  simp [State.flagThenReg]

@[simp] theorem State.flagThenReg_i (s : State) (f : Bool) (d : Reg) (g : State → Byte) :
    (s.flagThenReg f d g).i = s.i := rfl
@[simp] theorem State.flagThenReg_pc (s : State) (f : Bool) (d : Reg) (g : State → Byte) :
    (s.flagThenReg f d g).pc = s.pc := rfl
@[simp] theorem State.flagThenReg_stack (s : State) (f : Bool) (d : Reg) (g : State → Byte) :
    (s.flagThenReg f d g).stack = s.stack := rfl
@[simp] theorem State.flagThenReg_sp (s : State) (f : Bool) (d : Reg) (g : State → Byte) :
    (s.flagThenReg f d g).sp = s.sp := rfl
@[simp] theorem State.flagThenReg_dt (s : State) (f : Bool) (d : Reg) (g : State → Byte) :
    (s.flagThenReg f d g).dt = s.dt := rfl
@[simp] theorem State.flagThenReg_st (s : State) (f : Bool) (d : Reg) (g : State → Byte) :
    (s.flagThenReg f d g).st = s.st := rfl
@[simp] theorem State.flagThenReg_key (s : State) (f : Bool) (d : Reg) (g : State → Byte) :
    (s.flagThenReg f d g).key = s.key := rfl
@[simp] theorem State.flagThenReg_waitKey (s : State) (f : Bool) (d : Reg) (g : State → Byte) :
    (s.flagThenReg f d g).waitKey = s.waitKey := rfl
@[simp] theorem State.flagThenReg_halted (s : State) (f : Bool) (d : Reg) (g : State → Byte) :
    (s.flagThenReg f d g).halted = s.halted := rfl
@[simp] theorem State.flagThenReg_record (s : State) (f : Bool) (d : Reg) (g : State → Byte) :
    (s.flagThenReg f d g).record = s.record := rfl
@[simp] theorem State.flagThenReg_ram (s : State) (f : Bool) (d : Reg) (g : State → Byte) :
    (s.flagThenReg f d g).ram = s.ram := rfl
@[simp] theorem State.flagThenReg_disp (s : State) (f : Bool) (d : Reg) (g : State → Byte) :
    (s.flagThenReg f d g).disp = s.disp := rfl
@[simp] theorem State.flagThenReg_free (s : State) (f : Bool) (d : Reg) (g : State → Byte) :
    (s.flagThenReg f d g).free = s.free := rfl
@[simp] theorem State.flagThenReg_readByte (s : State) (f : Bool) (d : Reg) (g : State → Byte) (a : Nat) :
    (s.flagThenReg f d g).readByte a = s.readByte a := rfl
@[simp] theorem State.flagThenReg_pixel (s : State) (f : Bool) (d : Reg) (g : State → Byte) (xx yy : Nat) :
    (s.flagThenReg f d g).pixel xx yy = s.pixel xx yy := rfl

/-- Loading a list of registers writes no other field of the state. -/
theorem State.setRegs_eq (s : State) (r : Nat) (bs : List Byte) :
    s.setRegs r bs = { s with v := (s.setRegs r bs).v } := by
  induction bs generalizing s r with
  | nil => rfl
  | cons b bs ih =>
    rw [State.setRegs, ih]
    split <;> rfl

@[simp] theorem State.setRegs_i (s : State) (r : Nat) (bs : List Byte) : (s.setRegs r bs).i = s.i := by
  rw [State.setRegs_eq]
@[simp] theorem State.setRegs_pc (s : State) (r : Nat) (bs : List Byte) : (s.setRegs r bs).pc = s.pc := by
  rw [State.setRegs_eq]
@[simp] theorem State.setRegs_stack (s : State) (r : Nat) (bs : List Byte) : (s.setRegs r bs).stack = s.stack := by
  rw [State.setRegs_eq]
@[simp] theorem State.setRegs_sp (s : State) (r : Nat) (bs : List Byte) : (s.setRegs r bs).sp = s.sp := by
  rw [State.setRegs_eq]
@[simp] theorem State.setRegs_dt (s : State) (r : Nat) (bs : List Byte) : (s.setRegs r bs).dt = s.dt := by
  rw [State.setRegs_eq]
@[simp] theorem State.setRegs_st (s : State) (r : Nat) (bs : List Byte) : (s.setRegs r bs).st = s.st := by
  rw [State.setRegs_eq]
@[simp] theorem State.setRegs_key (s : State) (r : Nat) (bs : List Byte) : (s.setRegs r bs).key = s.key := by
  rw [State.setRegs_eq]
@[simp] theorem State.setRegs_waitKey (s : State) (r : Nat) (bs : List Byte) : (s.setRegs r bs).waitKey = s.waitKey := by
  rw [State.setRegs_eq]
@[simp] theorem State.setRegs_halted (s : State) (r : Nat) (bs : List Byte) : (s.setRegs r bs).halted = s.halted := by
  rw [State.setRegs_eq]
@[simp] theorem State.setRegs_record (s : State) (r : Nat) (bs : List Byte) : (s.setRegs r bs).record = s.record := by
  rw [State.setRegs_eq]
@[simp] theorem State.setRegs_ram (s : State) (r : Nat) (bs : List Byte) : (s.setRegs r bs).ram = s.ram := by
  rw [State.setRegs_eq]
@[simp] theorem State.setRegs_disp (s : State) (r : Nat) (bs : List Byte) : (s.setRegs r bs).disp = s.disp := by
  rw [State.setRegs_eq]
@[simp] theorem State.setRegs_free (s : State) (r : Nat) (bs : List Byte) : (s.setRegs r bs).free = s.free := by
  rw [State.setRegs_eq]
@[simp] theorem State.setRegs_readByte (s : State) (r : Nat) (bs : List Byte) (a : Nat) :
    (s.setRegs r bs).readByte a = s.readByte a := by
  rw [State.readByte, State.setRegs_ram, State.readByte]
@[simp] theorem State.setRegs_pixel (s : State) (r : Nat) (bs : List Byte) (xx yy : Nat) :
    (s.setRegs r bs).pixel xx yy = s.pixel xx yy := by
  simp only [State.pixel, State.setRegs_disp]

/-- Loading a list of registers: those named receive their byte, the others keep theirs. -/
theorem State.setRegs_reg (s : State) (r : Nat) (bs : List Byte) (q : Reg) :
    (s.setRegs r bs).reg q = if r ≤ q.val ∧ q.val < r + bs.length then bs.getD (q.val - r) 0 else s.reg q := by
  induction bs generalizing s r with
  | nil =>
    have : ¬ (r ≤ q.val ∧ q.val < r + ([] : List Byte).length) := by simp
    rw [if_neg this]
    rfl
  | cons b bs ih =>
    rw [State.setRegs, ih, List.length_cons]
    by_cases h : r + 1 ≤ q.val ∧ q.val < r + 1 + bs.length
    · rw [if_pos h, if_pos (by omega)]
      obtain ⟨k, hk⟩ : ∃ k, q.val = r + 1 + k := ⟨q.val - (r + 1), by omega⟩
      have e1 : q.val - (r + 1) = k := by omega
      have e2 : q.val - r = k + 1 := by omega
      rw [e1, e2, List.getD_cons_succ]
    · rw [if_neg h]
      by_cases e : q.val = r
      · have hr : r < 16 := e ▸ q.isLt
        have hq : (⟨r, hr⟩ : Reg) = q := Fin.ext e.symm
        rw [dif_pos hr, if_pos (by omega), State.setReg_reg, if_pos hq, e]
        simp
      · rw [if_neg (show ¬ (r ≤ q.val ∧ q.val < r + (bs.length + 1)) by omega)]
        split
        · rename_i hr
          have hq : (⟨r, hr⟩ : Reg) ≠ q := fun h => e (by rw [← h])
          rw [State.setReg_reg, if_neg hq]
        · rfl

/-- The values a block store takes: V0 upward. -/
theorem State.firstRegs_getD (s : State) {n k : Nat} (hk : k < n) (hn : n ≤ 16) :
    (s.firstRegs n).getD k 0 = s.reg ⟨k, by omega⟩ := by
  have h16 : k < 16 := by omega
  simp [State.firstRegs, State.reg, List.getD_eq_getElem?_getD, hk, h16]

theorem State.firstRegs_length (s : State) {n : Nat} (hn : n ≤ 16) : (s.firstRegs n).length = n := by
  simp [State.firstRegs, hn]

/-! ### Reset -/

@[simp] theorem State.reset_reg (r : Reg) : State.reset.reg r = 0 := by
  simp [State.reg, State.reset]

@[simp] theorem State.reset_readByte (a : Nat) : State.reset.readByte a = Memory.initialByte a := rfl

@[simp] theorem State.reset_pixel (xx yy : Nat) : State.reset.pixel xx yy = false := by
  simp [State.pixel, pixelOf, State.reset]

end Sys2Proof.Machine
end

