-- ==== Sys2Proof/Laws/Display.lean ====
section
/-! SUPPORT. What the blit does to every cell and when it reports a collision. -/

namespace Sys2Proof.Machine

/-- Two displays with the same cells are the same display. -/
theorem display_ext {d e : Display} (h : ∀ xx yy, pixelOf d xx yy = pixelOf e xx yy) : d = e := by
  refine Vector.ext fun yy hy => Vector.ext fun xx hx => ?_
  have := h xx yy
  simpa [pixelOf, hx, hy] using this

theorem pixelOf_outside (d : Display) {xx yy : Nat} (h : ¬ (xx < 64 ∧ yy < 32)) : pixelOf d xx yy = false := dif_neg h

@[simp] theorem pixelOf_blank (xx yy : Nat) : pixelOf blankDisplay xx yy = false := by
  simp [pixelOf, blankDisplay]

/-- One pixel of the blit, seen from any cell. -/
theorem pixelOf_plot (tx ty : Nat) (bit : Bool) (a : Display × Bool) (xx yy : Nat) (h : xx < 64 ∧ yy < 32) :
    pixelOf (plot tx ty bit a).1 xx yy = (pixelOf a.1 xx yy ^^ (bit && decide (tx = xx ∧ ty = yy))) := by
  by_cases ht : tx < 64 ∧ ty < 32
  · by_cases hy : ty = yy
    · subst hy
      by_cases hx : tx = xx
      · subst hx
        simp [plot, pixelOf, h]
      · simp [plot, pixelOf, h, ht, hx]
    · simp [plot, pixelOf, h, ht, hy]
  · have : ¬ (tx = xx ∧ ty = yy) := fun e => ht ⟨e.1 ▸ h.1, e.2 ▸ h.2⟩
    simp [plot, ht, this]

/-- The collision of one pixel: the cell was on under a bit of 1. -/
theorem plot_collision (tx ty : Nat) (bit : Bool) (a : Display × Bool) :
    (plot tx ty bit a).2 = (a.2 || (pixelOf a.1 tx ty && bit)) := by
  by_cases ht : tx < 64 ∧ ty < 32
  · simp [plot, pixelOf, ht]
  · simp [plot, pixelOf, ht]

/-- The first `k` pixels of a sprite row: the cells they reach, and the collision. -/
theorem drawRow_prefix (row : Byte) (ox ty : Nat) (a : Display × Bool) (k : Nat) :
    let b := (List.range k).foldl (fun a c => plot (ox + c) ty (spriteBit row c) a) a
    (∀ xx yy, xx < 64 ∧ yy < 32 → pixelOf b.1 xx yy =
      (pixelOf a.1 xx yy ^^ (decide (ty = yy ∧ ox ≤ xx ∧ xx < ox + k) && spriteBit row (xx - ox)))) ∧
    (b.2 = true ↔ a.2 = true ∨ ∃ c, c < k ∧ pixelOf a.1 (ox + c) ty = true ∧ spriteBit row c = true) := by
  induction k with
  | zero =>
    refine ⟨fun xx yy _ => ?_, by simp⟩
    have : ¬ (ty = yy ∧ ox ≤ xx ∧ xx < ox + 0) := by omega
    rw [decide_eq_false this]
    simp
  | succ k ih =>
    simp only [List.range_succ, List.foldl_append, List.foldl_cons, List.foldl_nil]
    obtain ⟨ihp, ihc⟩ := ih
    refine ⟨fun xx yy h => ?_, ?_⟩
    · rw [pixelOf_plot _ _ _ _ _ _ h, ihp xx yy h]
      by_cases e : ox + k = xx ∧ ty = yy
      · obtain ⟨rfl, rfl⟩ := e
        simp
      · have e' : decide (ty = yy ∧ ox ≤ xx ∧ xx < ox + (k + 1)) = decide (ty = yy ∧ ox ≤ xx ∧ xx < ox + k) := by
          congr 1
          exact propext ⟨fun g => by omega, fun g => by omega⟩
        simp [e, e']
    · rw [plot_collision, Bool.or_eq_true, ihc, Bool.and_eq_true, or_assoc]
      have cell : pixelOf ((List.range k).foldl (fun a c => plot (ox + c) ty (spriteBit row c) a) a).1 (ox + k) ty
          = pixelOf a.1 (ox + k) ty := by
        by_cases h : ox + k < 64 ∧ ty < 32
        · rw [ihp _ _ h]
          simp
        · rw [pixelOf_outside _ h, pixelOf_outside _ h]
      rw [cell]
      refine or_congr_right ⟨?_, ?_⟩
      · rintro (⟨c, hc, h⟩ | h)
        · exact ⟨c, by omega, h⟩
        · exact ⟨k, by omega, h⟩
      · rintro ⟨c, hc, h⟩
        by_cases e : c = k
        · exact .inr (e ▸ h)
        · exact .inl ⟨c, by omega, h⟩

/-- One sprite row: the cells it reaches, and the collision. -/
theorem drawRow_cells (row : Byte) (ox ty : Nat) (a : Display × Bool) :
    (∀ xx yy, xx < 64 ∧ yy < 32 → pixelOf (drawRow row ox ty a).1 xx yy =
      (pixelOf a.1 xx yy ^^ (decide (ty = yy ∧ ox ≤ xx ∧ xx < ox + 8) && spriteBit row (xx - ox)))) ∧
    ((drawRow row ox ty a).2 = true ↔
      a.2 = true ∨ ∃ c, c < 8 ∧ pixelOf a.1 (ox + c) ty = true ∧ spriteBit row c = true) :=
  drawRow_prefix row ox ty a 8

/-- The rows of a sprite: the cells they reach, and the collision. -/
theorem drawRows_cells (rows : List Byte) (ox ty : Nat) (a : Display × Bool) :
    (∀ xx yy, xx < 64 ∧ yy < 32 → pixelOf (drawRows rows ox ty a).1 xx yy =
      (pixelOf a.1 xx yy ^^ covers rows ox ty xx yy)) ∧
    ((drawRows rows ox ty a).2 = true ↔
      a.2 = true ∨ ∃ xx yy, pixelOf a.1 xx yy = true ∧ covers rows ox ty xx yy = true) := by
  induction rows generalizing ty a with
  | nil =>
    have : ∀ xx yy, covers [] ox ty xx yy = false := fun xx yy => by simp [covers]
    simp [drawRows, this]
  | cons row rows ih =>
    obtain ⟨rp, rc⟩ := drawRow_cells row ox ty a
    obtain ⟨ip, ic⟩ := ih (ty + 1) (drawRow row ox ty a)
    -- the first row covers its own line, the other rows the lines below it
    have first : ∀ xx, covers (row :: rows) ox ty xx ty = (decide (ox ≤ xx ∧ xx < ox + 8) && spriteBit row (xx - ox)) :=
      fun xx => by simp [covers, spriteBit]
    have below : ∀ xx yy, yy ≠ ty → covers (row :: rows) ox ty xx yy = covers rows ox (ty + 1) xx yy := by
      intro xx yy hne
      by_cases h : ty + 1 ≤ yy
      · obtain ⟨k, rfl⟩ : ∃ k, yy = ty + 1 + k := ⟨yy - (ty + 1), by omega⟩
        have e1 : ty + 1 + k - ty = k + 1 := by omega
        have e2 : ty + 1 + k - (ty + 1) = k := by omega
        rw [covers, covers, e1, e2, List.getD_cons_succ, List.length_cons]
        congr 2
        exact propext ⟨fun g => by omega, fun g => by omega⟩
      · have n1 : ¬ (ox ≤ xx ∧ xx < ox + 8 ∧ ty ≤ yy ∧ yy < ty + (row :: rows).length) := by omega
        have n2 : ¬ (ox ≤ xx ∧ xx < ox + 8 ∧ ty + 1 ≤ yy ∧ yy < ty + 1 + rows.length) := by omega
        rw [covers, covers, decide_eq_false n1, decide_eq_false n2, Bool.false_and, Bool.false_and]
    have above : ∀ xx, covers rows ox (ty + 1) xx ty = false := fun xx => by
      have : ¬ (ox ≤ xx ∧ xx < ox + 8 ∧ ty + 1 ≤ ty ∧ ty < ty + 1 + rows.length) := by omega
      rw [covers, decide_eq_false this, Bool.false_and]
    refine ⟨fun xx yy h => ?_, ?_⟩
    · rw [drawRows, ip xx yy h, rp xx yy h]
      by_cases e : ty = yy
      · subst e
        rw [above, first]
        simp
      · rw [below xx yy (Ne.symm e)]
        simp [e]
    · rw [drawRows, ic, rc, or_assoc]
      refine or_congr_right ⟨?_, ?_⟩
      · rintro (⟨c, hc, hp, hb⟩ | ⟨xx, yy, hp, hv⟩)
        · refine ⟨ox + c, ty, hp, ?_⟩
          rw [first]
          have : ox ≤ ox + c ∧ ox + c < ox + 8 := by omega
          simp [this, hb]
        · have hne : yy ≠ ty := fun e => by rw [e, above] at hv; exact absurd hv (by simp)
          by_cases h : xx < 64 ∧ yy < 32
          · refine ⟨xx, yy, ?_, by rw [below xx yy hne]; exact hv⟩
            rw [rp xx yy h] at hp
            simpa [hne.symm] using hp
          · rw [pixelOf_outside _ h] at hp
            exact absurd hp (by simp)
      · rintro ⟨xx, yy, hp, hv⟩
        by_cases e : yy = ty
        · subst e
          rw [first, Bool.and_eq_true, decide_eq_true_iff] at hv
          refine .inl ⟨xx - ox, by omega, ?_, hv.2⟩
          rw [Nat.add_sub_cancel' hv.1.1]
          exact hp
        · refine .inr ⟨xx, yy, ?_, by rw [← below xx yy e]; exact hv⟩
          by_cases h : xx < 64 ∧ yy < 32
          · rw [rp xx yy h]
            simpa [Ne.symm e] using hp
          · rw [pixelOf_outside _ h] at hp
            exact absurd hp (by simp)

/-- `draw` on any cell of the display. -/
theorem pixelOf_draw (sprite : List Byte) (ox oy : Nat) (d : Display) (xx yy : Nat) (h : xx < 64 ∧ yy < 32) :
    pixelOf (draw sprite ox oy d).1 xx yy = (pixelOf d xx yy ^^ covers sprite ox oy xx yy) :=
  (drawRows_cells sprite ox oy (d, false)).1 xx yy h

/-- `draw` reports a collision iff a cell that was on lies under a bit of 1. -/
theorem draw_collision_iff (sprite : List Byte) (ox oy : Nat) (d : Display) :
    (draw sprite ox oy d).2 = true ↔ ∃ xx yy, pixelOf d xx yy = true ∧ covers sprite ox oy xx yy = true := by
  simpa [draw] using (drawRows_cells sprite ox oy (d, false)).2

end Sys2Proof.Machine
end

