-- ==== Sys2Proof/Laws/Memory.lean ====
section
/-! SUPPORT. What the memory operations do: read after write, the canonical form, and the two block operations. -/

namespace Sys2Proof.Machine

/-! ### One byte -/

theorem Memory.read_filter_ne (m : Memory) {a b : Nat} (h : b ≠ a) :
    Memory.read (m.filter (fun c => c.1 != a)) b = m.read b := by
  induction m with
  | nil => rfl
  | cons c m ih =>
    by_cases hc : c.1 = a
    · have : c.1 ≠ b := fun e => h (e.symm.trans hc)
      simp [hc, Memory.read, ih, h.symm]
    · simp [hc, Memory.read, ih]

theorem Memory.read_filter_self (m : Memory) (a : Nat) :
    Memory.read (m.filter (fun c => c.1 != a)) a = Memory.initialByte a := by
  induction m with
  | nil => rfl
  | cons c m ih =>
    by_cases hc : c.1 = a
    · simp [hc, ih]
    · simp [hc, Memory.read, ih]

theorem Memory.read_write_self (m : Memory) (a : Nat) (v : Byte) : (m.write a v).read a = v := by
  induction m with
  | nil => by_cases h : v = Memory.initialByte a <;> simp [Memory.write, Memory.read, h]
  | cons c m ih =>
    obtain ⟨b, u⟩ := c
    by_cases hb : b < a
    · simp [Memory.write, Memory.read, hb, ih, Nat.ne_of_lt hb]
    · by_cases h : v = Memory.initialByte a
      · simp only [Memory.write, hb, h, if_false, if_true]
        exact Memory.read_filter_self _ a
      · simp [Memory.write, Memory.read, hb, h]

theorem Memory.read_write_other (m : Memory) {a b : Nat} (v : Byte) (h : b ≠ a) :
    (m.write a v).read b = m.read b := by
  induction m with
  | nil => by_cases e : v = Memory.initialByte a <;> simp [Memory.write, Memory.read, e, h.symm]
  | cons c m ih =>
    obtain ⟨d, u⟩ := c
    by_cases hd : d < a
    · simp [Memory.write, Memory.read, hd, ih]
    · by_cases e : v = Memory.initialByte a
      · simp only [Memory.write, hd, e, if_false, if_true]
        exact Memory.read_filter_ne _ h
      · simp only [Memory.write, hd, e, if_false, Memory.read, h.symm]
        exact Memory.read_filter_ne _ h

/-- Read after write, at any two addresses, in any memory. -/
theorem Memory.read_write (m : Memory) (a b : Nat) (v : Byte) :
    (m.write a v).read b = if b = a then v else m.read b := by
  by_cases h : b = a
  · simp [h, Memory.read_write_self]
  · simp [h, Memory.read_write_other m v h]

/-! ### The canonical form -/

theorem Memory.wf_nil : Memory.wf [] := ⟨List.Pairwise.nil, by simp⟩

theorem Memory.wf_tail {c : Host.Cell} {m : Memory} (h : Memory.wf (c :: m)) : m.wf :=
  ⟨(List.pairwise_cons.1 h.1).2, fun d hd => h.2 d (List.mem_cons_of_mem c hd)⟩

theorem Memory.wf_filter {m : Memory} (h : m.wf) (p : Host.Cell → Bool) : Memory.wf (m.filter p) :=
  ⟨h.1.filter p, fun c hc => h.2 c (List.mem_filter.1 hc).1⟩

/-- Every entry of a written memory is an old entry at another address, or the new one. -/
theorem Memory.mem_write {m : Memory} {a : Nat} {v : Byte} {c : Host.Cell} (h : c ∈ m.write a v) :
    c = (a, v) ∧ v ≠ Memory.initialByte a ∨ c ∈ m := by
  induction m with
  | nil =>
    by_cases e : v = Memory.initialByte a
    · simp [Memory.write, e] at h
    · exact .inl ⟨by simpa [Memory.write, e] using h, e⟩
  | cons d m ih =>
    obtain ⟨b, u⟩ := d
    by_cases hb : b < a
    · simp only [Memory.write, hb, if_true, List.mem_cons] at h
      rcases h with h | h
      · exact .inr (by simp [h])
      · exact (ih h).imp_right (List.mem_cons_of_mem _)
    · by_cases e : v = Memory.initialByte a
      · simp only [Memory.write, hb, e, if_false, if_true] at h
        exact .inr (List.mem_filter.1 h).1
      · simp only [Memory.write, hb, e, if_false, List.mem_cons] at h
        exact h.imp (fun h => ⟨h, e⟩) (fun h => (List.mem_filter.1 h).1)

/-- A write inside RAM keeps the canonical form. -/
theorem Memory.wf_write {m : Memory} (h : m.wf) {a : Nat} (ha : a < Config.ramSize) (v : Byte) : (m.write a v).wf := by
  refine ⟨?_, fun c hc => ?_⟩
  · have sorted := h.1
    clear h
    induction m with
    | nil => by_cases e : v = Memory.initialByte a <;> simp [Memory.write, e]
    | cons d m ih =>
      obtain ⟨b, u⟩ := d
      have hd := List.pairwise_cons.1 sorted
      by_cases hb : b < a
      · simp only [Memory.write, hb, if_true, List.pairwise_cons]
        refine ⟨fun c hc => ?_, ih hd.2⟩
        rcases Memory.mem_write hc with ⟨rfl, _⟩ | hc
        · exact hb
        · exact hd.1 c hc
      · have others := List.Pairwise.filter (fun c : Host.Cell => c.1 != a) sorted
        by_cases e : v = Memory.initialByte a
        · simpa only [Memory.write, hb, e, if_false, if_true] using others
        · simp only [Memory.write, hb, e, if_false, List.pairwise_cons]
          refine ⟨fun c hc => ?_, others⟩
          have hm := List.mem_filter.1 hc
          have hne : c.1 ≠ a := by simpa using hm.2
          have hle : b ≤ c.1 := by
            rcases List.mem_cons.1 hm.1 with rfl | hc'
            · exact Nat.le_refl _
            · exact Nat.le_of_lt (hd.1 c hc')
          show a < c.1
          omega
  · rcases Memory.mem_write hc with ⟨rfl, e⟩ | hc
    · exact ⟨ha, e⟩
    · exact h.2 c hc

/-- Whatever cells it is given, `normalise` answers a memory in canonical form. -/
theorem Memory.wf_normalise (cells : Memory) : (Memory.normalise cells).wf := by
  have aux : ∀ (l : List Host.Cell) (m : Memory), m.wf →
      Memory.wf (l.foldl (fun m c => if c.1 < Config.ramSize then m.write c.1 c.2 else m) m) := by
    intro l
    induction l with
    | nil => exact fun m h => h
    | cons c l ih =>
      intro m h
      refine ih _ ?_
      show Memory.wf (if c.1 < Config.ramSize then m.write c.1 c.2 else m)
      split
      · exact Memory.wf_write h ‹_› _
      · exact h
  exact aux cells [] Memory.wf_nil

/-- Writing above every listed address appends. -/
theorem Memory.write_above (m : Memory) {a : Nat} {v : Byte} (h : ∀ c ∈ m, c.1 < a)
    (hv : v ≠ Memory.initialByte a) : m.write a v = m ++ [(a, v)] := by
  induction m with
  | nil => simp [Memory.write, hv]
  | cons c m ih =>
    have hc : c.1 < a := h c List.mem_cons_self
    simp [Memory.write, hc, ih (fun d hd => h d (List.mem_cons_of_mem c hd))]

/-- `normalise` changes nothing in a memory that is in canonical form already, so it restricts no free memory. -/
theorem Memory.normalise_of_wf {m : Memory} (h : m.wf) : Memory.normalise m = m := by
  have aux : ∀ (l acc : List Host.Cell), Memory.wf (acc ++ l) →
      l.foldl (fun m c => if c.1 < Config.ramSize then Memory.write m c.1 c.2 else m) acc = acc ++ l := by
    intro l
    induction l with
    | nil => simp
    | cons c l ih =>
      intro acc h
      have hc := h.2 c (by simp)
      have below : ∀ d ∈ acc, d.1 < c.1 := fun d hd =>
        (List.pairwise_append.1 h.1).2.2 d hd c List.mem_cons_self
      simp only [List.foldl_cons, hc.1, if_true, Memory.write_above acc below hc.2]
      simpa using ih (acc ++ [c]) (by simpa using h)
  exact aux m [] h

/-! ### Consecutive bytes -/

/-- The loader's effect on every address: inside the block the loaded byte, elsewhere what was there. -/
theorem Memory.read_load (m : Memory) (a : Nat) (bs : List Byte) (b : Nat) :
    (m.load a bs).read b = if a ≤ b ∧ b < a + bs.length then bs.getD (b - a) 0 else m.read b := by
  induction bs generalizing m a with
  | nil =>
    have : ¬ (a ≤ b ∧ b < a + ([] : List Byte).length) := by simp
    rw [if_neg this]
    rfl
  | cons v bs ih =>
    simp only [Memory.load, ih, Memory.read_write, List.length_cons]
    by_cases h : a + 1 ≤ b ∧ b < a + 1 + bs.length
    · have h' : a ≤ b ∧ b < a + (bs.length + 1) := by omega
      rw [if_pos h, if_pos h']
      obtain ⟨k, rfl⟩ : ∃ k, b = a + 1 + k := ⟨b - (a + 1), by omega⟩
      have e1 : a + 1 + k - (a + 1) = k := by omega
      have e2 : a + 1 + k - a = k + 1 := by omega
      rw [e1, e2, List.getD_cons_succ]
    · rw [if_neg h]
      by_cases e : b = a
      · subst e
        simp
      · have h' : ¬ (a ≤ b ∧ b < a + (bs.length + 1)) := by omega
        rw [if_neg h', if_neg e]

/-- Loading inside RAM keeps the canonical form. -/
theorem Memory.wf_load {m : Memory} (h : m.wf) (a : Nat) (bs : List Byte) (ha : a + bs.length ≤ Config.ramSize) :
    (m.load a bs).wf := by
  induction bs generalizing m a with
  | nil => exact h
  | cons v bs ih =>
    rw [List.length_cons] at ha
    exact ih (Memory.wf_write h (by omega) v) (a + 1) (by omega)

theorem memRead_ok {a : Nat} (h : a < Config.ramSize) (m : Memory) : memRead a m = .ok (m.read a) := if_pos h

theorem memWrite_ok {a : Nat} (h : a < Config.ramSize) (v : Byte) (m : Memory) :
    memWrite a v m = .ok (m.write a v) := if_pos h

theorem memWrite_error {a : Nat} (h : Config.ramSize ≤ a) (v : Byte) (m : Memory) :
    memWrite a v m = .error a := if_neg (by omega)

theorem memRead_error {a : Nat} (h : Config.ramSize ≤ a) (m : Memory) : memRead a m = .error a := if_neg (by omega)

/-- A block read inside RAM answers the bytes in order. -/
theorem memReadBlock_ok {a n : Nat} (m : Memory) (h : a + n ≤ Config.ramSize) :
    memReadBlock a m n = .ok ((List.range n).map (fun k => m.read (a + k))) := by
  induction n generalizing a with
  | zero => rfl
  | succ n ih =>
    rw [memReadBlock, memRead_ok (by omega)]
    simp only [ih (show a + 1 + n ≤ Config.ramSize by omega), List.range_succ_eq_map, List.map_cons, List.map_map,
      Nat.add_zero]
    congr 2
    refine List.map_congr_left fun k _ => ?_
    simp [Function.comp, Nat.add_assoc, Nat.add_comm 1 k]

/-- A block read that leaves RAM reports its first address outside: `a` itself, or 4096. -/
theorem memReadBlock_error {a n : Nat} (m : Memory) (hn : 0 < n) (h : Config.ramSize < a + n) :
    memReadBlock a m n = .error (max a Config.ramSize) := by
  induction n generalizing a with
  | zero => omega
  | succ n ih =>
    rw [memReadBlock]
    by_cases ha : a < Config.ramSize
    · rw [memRead_ok ha]
      have e : max a Config.ramSize = max (a + 1) Config.ramSize := by omega
      simp only [e, ih (a := a + 1) (by omega) (by omega)]
    · rw [memRead_error (by omega), Nat.max_eq_left (by omega)]

/-- A read of no bytes succeeds whatever the address is. -/
theorem memReadBlock_zero (a : Nat) (m : Memory) : memReadBlock a m 0 = .ok [] := rfl

/-- A block write inside RAM is the load of its bytes. -/
theorem memWriteBlock_ok {a : Nat} {bs : List Byte} (m : Memory) (h : a + bs.length ≤ Config.ramSize) :
    memWriteBlock a bs m = .ok (m.load a bs) := by
  induction bs generalizing a m with
  | nil => rfl
  | cons b bs ih =>
    rw [List.length_cons] at h
    rw [memWriteBlock, memWrite_ok (by omega)]
    exact ih _ (by omega)

/-- A write of no bytes succeeds whatever the address is. -/
theorem memWriteBlock_nil (a : Nat) (m : Memory) : memWriteBlock a [] m = .ok m := rfl

/-- A block write that leaves RAM reports its first address outside: `a` itself, or 4096. -/
theorem memWriteBlock_error {a : Nat} {bs : List Byte} (m : Memory) (hn : 0 < bs.length)
    (h : Config.ramSize < a + bs.length) : memWriteBlock a bs m = .error (max a Config.ramSize) := by
  induction bs generalizing a m with
  | nil => simp at hn
  | cons b bs ih =>
    rw [List.length_cons] at h
    rw [memWriteBlock]
    by_cases ha : a < Config.ramSize
    · rw [memWrite_ok ha]
      have e : max a Config.ramSize = max (a + 1) Config.ramSize := by omega
      simp only [e]
      exact ih _ (by omega) (by omega)
    · rw [memWrite_error (by omega), Nat.max_eq_left (by omega)]

end Sys2Proof.Machine
end

