-- ==== Sys2Proof/Laws/Exec.lean ====
section
/-! SUPPORT. What taking a fault fixes, and what each instruction that accesses RAM answers, in range and out of it. -/

namespace Sys2Proof.Machine

/-! ### Taking a fault -/

@[simp] theorem raise_halted (f : Fault) (w : Word) (s : State) : (raise f w s).halted = true := rfl

@[simp] theorem raise_record (f : Fault) (w : Word) (s : State) : (raise f w s).record = ⟨f, s.pc, w⟩ := rfl

/-- A fault leaves RAM in canonical form, whatever it holds. -/
theorem raise_ram_wf (f : Fault) (w : Word) (s : State) : (raise f w s).ram.wf := Memory.wf_normalise _

/-- An access block that is in range raises no fault, and the reverse. -/
theorem State.blockFault_none_iff (s : State) (n : Nat) : s.blockFault n = none ↔ n = 0 ∨ s.i.toNat + n ≤ 4096 := by
  unfold State.blockFault
  split <;> simp <;> omega

theorem State.blockFault_eq_some (s : State) {n : Nat} {f : Fault} (h : s.blockFault n = some f) :
    0 < n ∧ 4096 < s.i.toNat + n ∧ f = .memOutOfRange (max s.i.toNat 4096) := by
  unfold State.blockFault at h
  split at h
  · exact ⟨‹0 < n ∧ _›.1, ‹0 < n ∧ _›.2, by simpa using h.symm⟩
  · simp at h

/-! ### Block reads and writes from I -/

/-- A block read from I that is in range answers the sprite bytes. -/
theorem State.read_block_ok (s : State) {n : Nat} (h : n = 0 ∨ s.i.toNat + n ≤ 4096) :
    memReadBlock (s.indexed 0) s.ram n = .ok (s.sprite n) := by
  rcases h with rfl | h
  · rfl
  · exact memReadBlock_ok _ h

theorem State.read_block_error (s : State) {n : Nat} (hn : 0 < n) (h : 4096 < s.i.toNat + n) :
    memReadBlock (s.indexed 0) s.ram n = .error (max s.i.toNat 4096) :=
  memReadBlock_error _ hn h

@[simp] theorem State.sprite_length (s : State) (n : Nat) : (s.sprite n).length = n := by simp [State.sprite]

theorem State.sprite_getD (s : State) {n k : Nat} (h : k < n) : (s.sprite n).getD k 0 = s.readByte (s.i.toNat + k) := by
  simp [State.sprite, List.getD_eq_getElem?_getD, h]

/-! ### The instructions that access RAM -/

/-- `DRW` in range (R187). -/
theorem execDrw_ok (x y : Reg) {n : Nat} {s : State} (h : n = 0 ∨ s.i.toNat + n ≤ 4096) :
    let drawn := draw (s.sprite n) (s.reg x).toNat (s.reg y).toNat s.disp
    execDrw x y n s = .next ((s.setDisp drawn.1).setReg VF (flagByte drawn.2)).advance := by
  simp only [execDrw, State.read_block_ok s h]
  rfl

theorem execDrw_fault (x y : Reg) {n : Nat} {s : State} (hn : 0 < n) (h : 4096 < s.i.toNat + n) :
    execDrw x y n s = .next (raise (.memOutOfRange (max s.i.toNat 4096)) (encode (.drw x y n)) s) := by
  simp only [execDrw, State.read_block_error s hn h]
  rfl

/-- `LD Vx,[I]` in range (R165). -/
theorem execLoadRegs_ok {x : Reg} {s : State} (h : x.val = 0 ∨ s.i.toNat + x.val ≤ 4096) :
    execLoadRegs x s = .next (s.setRegs 0 (s.sprite x.val)).advance := by
  simp only [execLoadRegs, State.read_block_ok s h]
  rfl

theorem execLoadRegs_fault {x : Reg} {s : State} (hn : 0 < x.val) (h : 4096 < s.i.toNat + x.val) :
    execLoadRegs x s = .next (raise (.memOutOfRange (max s.i.toNat 4096)) (encode (.loadRegs x)) s) := by
  simp only [execLoadRegs, State.read_block_error s hn h]
  rfl

/-- `LD [I],Vx` in range (R164). -/
theorem execStoreRegs_ok {x : Reg} {s : State} (h : x.val = 0 ∨ s.i.toNat + x.val ≤ 4096) :
    execStoreRegs x s = .next (s.setRam (s.ram.load s.i.toNat (s.firstRegs x.val))).advance := by
  have len : (s.firstRegs x.val).length = x.val := s.firstRegs_length (by omega)
  rcases h with h | h
  · have nil : s.firstRegs x.val = [] := List.eq_nil_of_length_eq_zero (len.trans h)
    simp only [execStoreRegs, nil]
    rfl
  · have ok : memWriteBlock (s.indexed 0) (s.firstRegs x.val) s.ram = .ok (s.ram.load s.i.toNat (s.firstRegs x.val)) :=
      memWriteBlock_ok _ (by rw [len]; exact h)
    simp only [execStoreRegs, ok]
    rfl

theorem execStoreRegs_fault {x : Reg} {s : State} (hn : 0 < x.val) (h : 4096 < s.i.toNat + x.val) :
    execStoreRegs x s = .next (raise (.memOutOfRange (max s.i.toNat 4096)) (encode (.storeRegs x)) s) := by
  have len : (s.firstRegs x.val).length = x.val := s.firstRegs_length (by omega)
  have error : memWriteBlock (s.indexed 0) (s.firstRegs x.val) s.ram = .error (max s.i.toNat 4096) :=
    memWriteBlock_error _ (by rw [len]; exact hn) (by rw [len]; exact h)
  simp only [execStoreRegs, error]
  rfl

/-- The byte an in-range `LD [I],Vx` leaves at an address: the stored register inside the block, the old byte outside. -/
theorem State.readByte_storeRegs (s : State) {n : Nat} (hn : n ≤ 16) (a : Nat) :
    (s.ram.load s.i.toNat (s.firstRegs n)).read a =
      if h : s.i.toNat ≤ a ∧ a < s.i.toNat + n then s.reg ⟨a - s.i.toNat, by omega⟩ else s.readByte a := by
  rw [Memory.read_load, s.firstRegs_length hn]
  by_cases h : s.i.toNat ≤ a ∧ a < s.i.toNat + n
  · rw [if_pos h, dif_pos h, s.firstRegs_getD (by omega) hn]
  · rw [if_neg h, dif_neg h]
    rfl

/-- `LD B,Vx` in range (R163). -/
theorem execLdBcd_ok {x : Reg} {s : State} (h : s.i.toNat + 2 < 4096) :
    execLdBcd x s = .next (s.setRam (((s.ram.write (s.i.toNat + 2) (decimalDigit (s.reg x) 1)).write (s.i.toNat + 1)
      (decimalDigit (s.reg x) 10)).write s.i.toNat (decimalDigit (s.reg x) 100))).advance := by
  have h2 : s.indexed 2 < Config.ramSize := h
  have h1 : s.indexed 1 < Config.ramSize := by simp only [State.indexed, Config.ramSize]; omega
  have h0 : s.indexed 0 < Config.ramSize := by simp only [State.indexed, Config.ramSize]; omega
  simp only [execLdBcd, bcdStores, memWrite_ok h2, memWrite_ok h1, memWrite_ok h0]
  rfl

theorem execLdBcd_fault {x : Reg} {s : State} (h : 4096 ≤ s.i.toNat + 2) :
    execLdBcd x s = .next (raise (.memOutOfRange (s.i.toNat + 2)) (encode (.ldBcd x)) s) := by
  have e : memWrite (s.indexed 2) (decimalDigit (s.reg x) 1) s.ram = .error (s.i.toNat + 2) := memWrite_error h _ _
  simp only [execLdBcd, bcdStores, e]
  rfl

/-! ### CALL and RET -/

theorem execCall_ok {nnn : Addr} {s : State} (room : s.sp.val < 16) :
    execCall nnn s = .next ((s.push (s.pc + 2) room).setPc (addrWord nnn)) := dif_pos room

theorem execCall_fault {nnn : Addr} {s : State} (full : s.sp.val = 16) :
    execCall nnn s = .next (raise .stackOverflow (encode (.call nnn)) s) := dif_neg (by omega)

theorem execRet_ok {s : State} (live : 0 < s.sp.val) : execRet s = .next (s.pop.setPc (s.top live)) := dif_pos live

theorem execRet_fault {s : State} (empty : s.sp.val = 0) :
    execRet s = .next (raise .stackUnderflow (encode .ret) s) := dif_neg (by omega)

end Sys2Proof.Machine
end

