-- ==== Sys2Proof/Laws/PerInstr.lean ====
section
/-! SUPPORT. The family RowMatch: the word of every instruction is selected by the row of the decode table that the
instruction was encoded from, one lemma a constructor. -/

namespace Sys2Proof.Laws.RowMatch

/-- The place of an instruction's row in the decode table (spec 30 R74, counted from 0). -/
def rowIndex : Instr → Nat
  | .cls => 0
  | .ret => 1
  | .jp _ => 2
  | .call _ => 3
  | .seByte _ _ => 4
  | .sneByte _ _ => 5
  | .seReg _ _ => 6
  | .ldByte _ _ => 7
  | .addByte _ _ => 8
  | .ldReg _ _ => 9
  | .orReg _ _ => 10
  | .andReg _ _ => 11
  | .xorReg _ _ => 12
  | .addReg _ _ => 13
  | .subReg _ _ => 14
  | .shrReg _ _ => 15
  | .subnReg _ _ => 16
  | .shlReg _ _ => 17
  | .sneReg _ _ => 18
  | .ldIndex _ => 19
  | .jpV0 _ => 20
  | .rnd _ _ => 21
  | .drw _ _ _ => 22
  | .skp _ => 23
  | .sknp _ => 24
  | .ldFromDt _ => 25
  | .ldKey _ => 26
  | .ldDt _ => 27
  | .ldSt _ => 28
  | .addIndex _ => 29
  | .ldFont _ => 30
  | .ldBcd _ => 31
  | .storeRegs _ => 32
  | .loadRegs _ => 33

/-- The instruction's own row selects its word, and reads the instruction back from it when the operands fit. -/
def Statement (i : Instr) : Prop :=
  ∃ r, decodeTable[rowIndex i]? = some r ∧ r.selects (encode i) = true ∧ (i.wellFormed = true → r.build (encode i) = i)

theorem cls : Statement .cls := ⟨_, rfl, by decide, fun _ => rfl⟩

theorem ret : Statement .ret := ⟨_, rfl, by decide, fun _ => rfl⟩

theorem jp (nnn : Addr) : Statement (.jp nnn) :=
  ⟨_, rfl, by simp only [DecodeRow.selects, encode, formNNN_and]; decide, fun _ => by simp [encode]⟩

theorem call (nnn : Addr) : Statement (.call nnn) :=
  ⟨_, rfl, by simp only [DecodeRow.selects, encode, formNNN_and]; decide, fun _ => by simp [encode]⟩

theorem seByte (x : Reg) (nn : Byte) : Statement (.seByte x nn) :=
  ⟨_, rfl, by simp only [DecodeRow.selects, encode, formXNN_and]; decide, fun _ => by simp [encode]⟩

theorem sneByte (x : Reg) (nn : Byte) : Statement (.sneByte x nn) :=
  ⟨_, rfl, by simp only [DecodeRow.selects, encode, formXNN_and]; decide, fun _ => by simp [encode]⟩

theorem seReg (x y : Reg) : Statement (.seReg x y) :=
  ⟨_, rfl, by simp only [DecodeRow.selects, encode, formXY_and]; decide, fun _ => by simp [encode]⟩

theorem ldByte (x : Reg) (nn : Byte) : Statement (.ldByte x nn) :=
  ⟨_, rfl, by simp only [DecodeRow.selects, encode, formXNN_and]; decide, fun _ => by simp [encode]⟩

theorem addByte (x : Reg) (nn : Byte) : Statement (.addByte x nn) :=
  ⟨_, rfl, by simp only [DecodeRow.selects, encode, formXNN_and]; decide, fun _ => by simp [encode]⟩

theorem ldReg (x y : Reg) : Statement (.ldReg x y) :=
  ⟨_, rfl, by simp only [DecodeRow.selects, encode, formXY_and]; decide, fun _ => by simp [encode]⟩

theorem orReg (x y : Reg) : Statement (.orReg x y) :=
  ⟨_, rfl, by simp only [DecodeRow.selects, encode, formXY_and]; decide, fun _ => by simp [encode]⟩

theorem andReg (x y : Reg) : Statement (.andReg x y) :=
  ⟨_, rfl, by simp only [DecodeRow.selects, encode, formXY_and]; decide, fun _ => by simp [encode]⟩

theorem xorReg (x y : Reg) : Statement (.xorReg x y) :=
  ⟨_, rfl, by simp only [DecodeRow.selects, encode, formXY_and]; decide, fun _ => by simp [encode]⟩

theorem addReg (x y : Reg) : Statement (.addReg x y) :=
  ⟨_, rfl, by simp only [DecodeRow.selects, encode, formXY_and]; decide, fun _ => by simp [encode]⟩

theorem subReg (x y : Reg) : Statement (.subReg x y) :=
  ⟨_, rfl, by simp only [DecodeRow.selects, encode, formXY_and]; decide, fun _ => by simp [encode]⟩

theorem shrReg (x y : Reg) : Statement (.shrReg x y) :=
  ⟨_, rfl, by simp only [DecodeRow.selects, encode, formXY_and]; decide, fun _ => by simp [encode]⟩

theorem subnReg (x y : Reg) : Statement (.subnReg x y) :=
  ⟨_, rfl, by simp only [DecodeRow.selects, encode, formXY_and]; decide, fun _ => by simp [encode]⟩

theorem shlReg (x y : Reg) : Statement (.shlReg x y) :=
  ⟨_, rfl, by simp only [DecodeRow.selects, encode, formXY_and]; decide, fun _ => by simp [encode]⟩

theorem sneReg (x y : Reg) : Statement (.sneReg x y) :=
  ⟨_, rfl, by simp only [DecodeRow.selects, encode, formXY_and]; decide, fun _ => by simp [encode]⟩

theorem ldIndex (nnn : Addr) : Statement (.ldIndex nnn) :=
  ⟨_, rfl, by simp only [DecodeRow.selects, encode, formNNN_and]; decide, fun _ => by simp [encode]⟩

theorem jpV0 (nnn : Addr) : Statement (.jpV0 nnn) :=
  ⟨_, rfl, by simp only [DecodeRow.selects, encode, formNNN_and]; decide, fun _ => by simp [encode]⟩

theorem rnd (x : Reg) (nn : Byte) : Statement (.rnd x nn) :=
  ⟨_, rfl, by simp only [DecodeRow.selects, encode, formXNN_and]; decide, fun _ => by simp [encode]⟩

theorem drw (x y : Reg) (n : Nat) : Statement (.drw x y n) := by
  refine ⟨_, rfl, by simp only [DecodeRow.selects, encode, formXYN_and]; decide, fun h => ?_⟩
  have hn : n < 16 := by simpa [Instr.wellFormed] using h
  simp [encode, Nat.mod_eq_of_lt hn]

theorem skp (x : Reg) : Statement (.skp x) :=
  ⟨_, rfl, by simp only [DecodeRow.selects, encode, formX_and]; decide, fun _ => by simp [encode]⟩

theorem sknp (x : Reg) : Statement (.sknp x) :=
  ⟨_, rfl, by simp only [DecodeRow.selects, encode, formX_and]; decide, fun _ => by simp [encode]⟩

theorem ldFromDt (x : Reg) : Statement (.ldFromDt x) :=
  ⟨_, rfl, by simp only [DecodeRow.selects, encode, formX_and]; decide, fun _ => by simp [encode]⟩

theorem ldKey (x : Reg) : Statement (.ldKey x) :=
  ⟨_, rfl, by simp only [DecodeRow.selects, encode, formX_and]; decide, fun _ => by simp [encode]⟩

theorem ldDt (x : Reg) : Statement (.ldDt x) :=
  ⟨_, rfl, by simp only [DecodeRow.selects, encode, formX_and]; decide, fun _ => by simp [encode]⟩

theorem ldSt (x : Reg) : Statement (.ldSt x) :=
  ⟨_, rfl, by simp only [DecodeRow.selects, encode, formX_and]; decide, fun _ => by simp [encode]⟩

theorem addIndex (x : Reg) : Statement (.addIndex x) :=
  ⟨_, rfl, by simp only [DecodeRow.selects, encode, formX_and]; decide, fun _ => by simp [encode]⟩

theorem ldFont (x : Reg) : Statement (.ldFont x) :=
  ⟨_, rfl, by simp only [DecodeRow.selects, encode, formX_and]; decide, fun _ => by simp [encode]⟩

theorem ldBcd (x : Reg) : Statement (.ldBcd x) :=
  ⟨_, rfl, by simp only [DecodeRow.selects, encode, formX_and]; decide, fun _ => by simp [encode]⟩

theorem storeRegs (x : Reg) : Statement (.storeRegs x) :=
  ⟨_, rfl, by simp only [DecodeRow.selects, encode, formX_and]; decide, fun _ => by simp [encode]⟩

theorem loadRegs (x : Reg) : Statement (.loadRegs x) :=
  ⟨_, rfl, by simp only [DecodeRow.selects, encode, formX_and]; decide, fun _ => by simp [encode]⟩

end Sys2Proof.Laws.RowMatch
end

