-- ==== Sys2Proof/Laws/Step.lean ====
section
/-! SUPPORT. What one step answers in each of its four cases, what an instruction answers when its fault is due, and what
the host operations answer. -/

namespace Sys2Proof.Machine

/-! ### Fields read by arithmetic, and the fetched word -/

theorem fieldX_eq_arithX (w : Word) : fieldX w = arithX w :=
  Fin.ext (by simp [fieldX, arithX, Nat.shiftRight_eq_div_pow])

theorem fieldY_eq_arithY (w : Word) : fieldY w = arithY w :=
  Fin.ext (by simp [fieldY, arithY, Nat.shiftRight_eq_div_pow])

theorem fieldN_eq_arithN (w : Word) : fieldN w = arithN w := by simp [fieldN, arithN]

theorem fieldNN_eq_arithNN (w : Word) : fieldNN w = arithNN w := BitVec.eq_of_toNat_eq (by simp [fieldNN, arithNN])

theorem fieldNNN_eq_arithNNN (w : Word) : fieldNNN w = arithNNN w := BitVec.eq_of_toNat_eq (by simp [fieldNNN, arithNNN])

/-- The big-endian word as a number. -/
theorem wordOfBytes_toNat (hi lo : Byte) : (wordOfBytes hi lo).toNat = hi.toNat * 256 + lo.toNat := by
  have h := hi.isLt
  have l := lo.isLt
  have eh : hi.toNat % 2 ^ 16 = hi.toNat := Nat.mod_eq_of_lt (by omega)
  have el : lo.toNat % 2 ^ 16 = lo.toNat := Nat.mod_eq_of_lt (by omega)
  have es : (hi.toNat <<< 8) % 2 ^ 16 = hi.toNat <<< 8 := Nat.mod_eq_of_lt (by rw [Nat.shiftLeft_eq]; omega)
  rw [wordOfBytes, BitVec.toNat_or, BitVec.toNat_shiftLeft, BitVec.toNat_setWidth, BitVec.toNat_setWidth, eh, el, es,
    ← Nat.shiftLeft_add_eq_or_of_lt l, Nat.shiftLeft_eq]

/-- A fetch succeeds exactly at an address up to 4094. -/
theorem State.fetch_eq_none_iff (s : State) : s.fetch = none ↔ 4095 ≤ s.pc.toNat := by
  simp only [State.fetch, Config.ramSize]
  split <;> simp <;> omega

/-! ### The timers -/

theorem countDown_toNat (b : Byte) : (countDown b).toNat = b.toNat - 1 := by
  unfold countDown
  split
  · simp_all
  · rename_i h
    have pos : b.toNat ≠ 0 := fun e => h (BitVec.eq_of_toNat_eq (by simpa using e))
    have lt := b.isLt
    have one : (1 : Byte).toNat = 1 := rfl
    rw [BitVec.toNat_sub, one]
    omega

/-! ### The four cases of a step -/

theorem step_of_halted {s : State} (h : s.halted = true) : step s = .next s := if_pos h

theorem step_of_fetch_none {s : State} (h : s.running) (hf : s.fetch = none) :
    step s = .next (raise .fetchOutOfRange (Config.fetchFaultWord s) s) := by
  rw [step, if_neg (by rw [show s.halted = false from h]; exact Bool.false_ne_true), hf]

theorem step_of_unknown {s : State} {w : Word} {e : DecodeError} (h : s.running) (hf : s.fetch = some w)
    (hd : decodeWord w = .error e) : step s = .next (raise .unknownOpcode w s.tickTimers) := by
  rw [step, if_neg (by rw [show s.halted = false from h]; exact Bool.false_ne_true), hf]
  simp only [hd]

theorem step_of_decoded {s : State} {w : Word} {i : Instr} (h : s.running) (hf : s.fetch = some w)
    (hd : decodeWord w = .ok i) : step s = exec i s.tickTimers := by
  rw [step, if_neg (by rw [show s.halted = false from h]; exact Bool.false_ne_true), hf]
  simp only [hd]

/-! ### When a fault is due -/

/-- The timer decrement changes nothing that a fault depends on. -/
theorem faultOf_tickTimers (i : Instr) (s : State) : faultOf i s.tickTimers = faultOf i s := by
  cases i <;> rfl

/-- An instruction whose fault is due takes it. -/
theorem exec_of_faultOf {i : Instr} {s : State} {f : Fault} (h : faultOf i s = some f) :
    exec i s = .next (raise f (encode i) s) := by
  cases i
  case call =>
    simp only [faultOf] at h
    split at h <;> cases h
    exact execCall_fault ‹_›
  case ret =>
    simp only [faultOf] at h
    split at h <;> cases h
    exact execRet_fault ‹_›
  case ldBcd =>
    simp only [faultOf] at h
    split at h <;> cases h
    exact execLdBcd_fault ‹_›
  case drw =>
    obtain ⟨hn, hb, rfl⟩ := s.blockFault_eq_some h
    exact execDrw_fault _ _ hn hb
  case storeRegs =>
    obtain ⟨hn, hb, rfl⟩ := s.blockFault_eq_some h
    exact execStoreRegs_fault hn hb
  case loadRegs =>
    obtain ⟨hn, hb, rfl⟩ := s.blockFault_eq_some h
    exact execLoadRegs_fault hn hb
  all_goals cases h

/-! ### The host operations -/

/-- The spec's 8-bit wait latch is 0xFF exactly when no register waits. -/
theorem State.waitingKey_eq (s : State) : s.waitingKey = s.waitKey.isSome := by
  unfold State.waitingKey State.waitKeyByte
  cases s.waitKey with
  | none => rfl
  | some r =>
    have e : (BitVec.ofNat 8 r.val).toNat = r.val := by
      rw [BitVec.toNat_ofNat]
      omega
    simp only [Option.isSome_some, bne_iff_ne]
    intro h
    have := congrArg BitVec.toNat h
    have all : (0xFF : Byte).toNat = 255 := rfl
    rw [e, all] at this
    omega

theorem State.press_of_idle {s : State} {k : Byte} (hk : k.toNat ≤ 15) (h : s.running) (hw : s.waitKey = none) :
    s.press k = .next (s.setKey k) := by
  rw [State.press, if_neg (by omega), if_neg (by rw [show s.halted = false from h]; exact Bool.false_ne_true), hw]

theorem State.press_of_waiting {s : State} {k : Byte} {r : Reg} (hk : k.toNat ≤ 15) (h : s.running)
    (hw : s.waitKey = some r) : s.press k = .next (((s.setKey k).setReg r k).setWaitKey none) := by
  rw [State.press, if_neg (by omega), if_neg (by rw [show s.halted = false from h]; exact Bool.false_ne_true), hw]

theorem State.releaseKey_of_running {s : State} (h : s.running) : s.releaseKey = s.setKey 0xFF := by
  rw [State.releaseKey, if_neg (by rw [show s.halted = false from h]; exact Bool.false_ne_true)]

end Sys2Proof.Machine
end

