-- ==== Sys2Proof/Tests/Slice0.lean ====
section
/-! SUPPORT. Tests whose expected results are the worked words and vectors of spec 95 (named in each docstring), the smoke
test of well-formedness, and for each statement with hypotheses a witness that meets them. -/

namespace Sys2Proof.Tests

open Sys2Proof Sys2Proof.Machine

/-! ### Helpers -/

/-- What holds of the state after one step that runs the word, from a state. -/
def after (s : State) (w : Nat) (p : State → Bool) : Bool :=
  match step (s.withFetchWord 16 w) with
  | .next t => p t
  | _ => false

/-- The step that runs the word takes this fault. -/
def faults (s : State) (w : Nat) (f : Fault) : Bool :=
  after s w (fun t => t.halted && t.record == ⟨f, s.pc, BitVec.ofNat 16 w⟩)

/-- The reset state with some registers set. -/
def regs (l : List (Reg × Byte)) : State := l.foldl (fun s p => s.setReg p.1 p.2) State.reset

/-- The reset state with a stack pointer. -/
def atSp (sp : Fin 17) : State := { State.reset with sp := sp }

/-- Bytes put into RAM. -/
def put (s : State) (a : Nat) (bs : List Byte) : State := s.setRam (s.ram.load a bs)

/-- A cell lit. -/
def lit (s : State) (xx yy : Nat) : State := s.setDisp (plot xx yy true (s.disp, false)).1

/-- A halted state. -/
def stopped : State := { State.reset with halted := true }

/-- The number of lit cells. -/
def litCount (s : State) : Nat := (s.disp.toList.map (fun row => row.toList.countP id)).sum

/-! ### Well-formedness (its one check) -/

theorem test_wellFormed_refuses_a_sprite_of_16_rows : (Instr.drw 0 0 16).wellFormed = false := by decide

theorem test_wellFormed_accepts_a_sprite_of_15_rows : (Instr.drw 0 0 15).wellFormed = true := by decide

/-! ### Decoding: each constructor's word bit by bit from spec 30 R71, R74 (registers and immediates as in spec 95 V8) -/

theorem test_decode_fixed :
    decodeWord 0b0000_0000_1110_0000 = .ok .cls ∧ decodeWord 0b0000_0000_1110_1110 = .ok .ret := ⟨rfl, rfl⟩

theorem test_decode_address_forms :
    decodeWord 0b0001_0000_1110_0000 = .ok (.jp 0x0E0) ∧ decodeWord 0b0010_1111_1111_1111 = .ok (.call 0xFFF) ∧
    decodeWord 0b1010_0010_1111_0000 = .ok (.ldIndex 0x2F0) ∧ decodeWord 0b1011_0001_0010_0011 = .ok (.jpV0 0x123) :=
  ⟨rfl, rfl, rfl, rfl⟩

theorem test_decode_byte_forms :
    decodeWord 0b0011_1010_1111_1111 = .ok (.seByte 0xA 0xFF) ∧ decodeWord 0b0100_0000_0000_0000 = .ok (.sneByte 0 0) ∧
    decodeWord 0b0110_0010_0000_1010 = .ok (.ldByte 2 0x0A) ∧ decodeWord 0b0111_1111_1111_1111 = .ok (.addByte 0xF 0xFF) ∧
    decodeWord 0b1100_0001_0000_1111 = .ok (.rnd 1 0x0F) := ⟨rfl, rfl, rfl, rfl, rfl⟩

theorem test_decode_register_forms :
    decodeWord 0b0101_1010_1011_0000 = .ok (.seReg 0xA 0xB) ∧ decodeWord 0b1000_1010_1011_0000 = .ok (.ldReg 0xA 0xB) ∧
    decodeWord 0b1000_1010_1011_0001 = .ok (.orReg 0xA 0xB) ∧ decodeWord 0b1000_1010_1011_0010 = .ok (.andReg 0xA 0xB) ∧
    decodeWord 0b1000_1010_1011_0011 = .ok (.xorReg 0xA 0xB) ∧ decodeWord 0b1000_1010_1011_0100 = .ok (.addReg 0xA 0xB) ∧
    decodeWord 0b1000_1010_1011_0101 = .ok (.subReg 0xA 0xB) ∧ decodeWord 0b1000_1010_1011_0110 = .ok (.shrReg 0xA 0xB) ∧
    decodeWord 0b1000_1010_1011_0111 = .ok (.subnReg 0xA 0xB) ∧ decodeWord 0b1000_1010_1011_1110 = .ok (.shlReg 0xA 0xB) ∧
    decodeWord 0b1001_1010_1011_0000 = .ok (.sneReg 0xA 0xB) ∧
    decodeWord 0b1101_1010_1011_1111 = .ok (.drw 0xA 0xB 15) := ⟨rfl, rfl, rfl, rfl, rfl, rfl, rfl, rfl, rfl, rfl, rfl, rfl⟩

theorem test_decode_single_register_forms :
    decodeWord 0b1110_1111_1001_1110 = .ok (.skp 0xF) ∧ decodeWord 0b1110_0000_1010_0001 = .ok (.sknp 0) ∧
    decodeWord 0b1111_0100_0000_0111 = .ok (.ldFromDt 4) ∧ decodeWord 0b1111_0011_0000_1010 = .ok (.ldKey 3) ∧
    decodeWord 0b1111_0011_0001_0101 = .ok (.ldDt 3) ∧ decodeWord 0b1111_0101_0001_1000 = .ok (.ldSt 5) ∧
    decodeWord 0b1111_0010_0001_1110 = .ok (.addIndex 2) ∧ decodeWord 0b1111_0000_0010_1001 = .ok (.ldFont 0) ∧
    decodeWord 0b1111_0101_0011_0011 = .ok (.ldBcd 5) ∧ decodeWord 0b1111_0011_0101_0101 = .ok (.storeRegs 3) ∧
    decodeWord 0b1111_1111_0110_0101 = .ok (.loadRegs 0xF) := ⟨rfl, rfl, rfl, rfl, rfl, rfl, rfl, rfl, rfl, rfl, rfl⟩

/-- V8.4, V8.15, V8.30, V8.34, V8.45, V8.61. -/
theorem test_decode_unknown :
    decodeWord 0x00E1 = .error (.unknown 0x00E1) ∧ decodeWord 0x5AB1 = .error (.unknown 0x5AB1) ∧
    decodeWord 0x8ABD = .error (.unknown 0x8ABD) ∧ decodeWord 0x9AB1 = .error (.unknown 0x9AB1) ∧
    decodeWord 0xE19D = .error (.unknown 0xE19D) ∧ decodeWord 0xF075 = .error (.unknown 0xF075) :=
  ⟨rfl, rfl, rfl, rfl, rfl, rfl⟩

/-- The byte at the lower address is the high byte (spec 20 R51; V9.7). -/
theorem test_decode_bytes : decodeBytes [0x62, 0x0A, 0x77] = .ok (.ldByte 2 0x0A, [0x77]) ∧
    decodeBytes [0x62] = .error .truncated ∧ decodeTableWord 16 0x620A = some (.ldByte 2 0x0A) := ⟨rfl, rfl, rfl⟩

theorem test_encode_words : encode (.drw 0xA 0xB 15) = 0xDABF ∧ encode (.loadRegs 0xF) = 0xFF65 ∧
    encode (.jpV0 0x123) = 0xB123 ∧ encodeBytes (.ldByte 2 0x0A) = [0x62, 0x0A] := by decide

/-! ### Assembler text (S6 and V8) -/

theorem test_text : textOfWord 0xA2F0 = "LD I, 0x2f0".toList ∧ textOfWord 0xD015 = "DRW V0, V1, 5".toList ∧
    textOfWord 0xDABF = "DRW VA, VB, 15".toList ∧ textOfWord 0xF055 = "LD [I], V0".toList ∧
    textOfWord 0x00FD = "UNKNOWN".toList := by decide

/-- S6, the first two lines. -/
theorem test_disassemble : disassemble 0x200 [0x00, 0xE0, 0xA2, 0xF0] =
    ["0x0200 0x00e0 CLS".toList, "0x0202 0xa2f0 LD I, 0x2f0".toList] := by decide

/-! ### Arithmetic and logic (V1) -/

/-- V1.2. -/
theorem test_ldByte : after State.reset 0x6F07 (fun t => t.reg 15 == 0x07 && t.pc == 0x202) = true := by decide

/-- V1.3: wraps, VF untouched. -/
theorem test_addByte : after (regs [(2, 0xFF), (15, 0x55)]) 0x7201
    (fun t => t.reg 2 == 0x00 && t.reg 15 == 0x55 && t.pc == 0x202) = true := by decide

/-- V1.6. -/
theorem test_ldReg : after (regs [(1, 0x11), (2, 0x99)]) 0x8120 (fun t => t.reg 1 == 0x99 && t.reg 2 == 0x99) = true := by
  decide

/-- V1.8: VF untouched. -/
theorem test_orReg : after (regs [(1, 0xF0), (2, 0x0F), (15, 0x55)]) 0x8121
    (fun t => t.reg 1 == 0xFF && t.reg 2 == 0x0F && t.reg 15 == 0x55) = true := by decide

/-- V1.9. -/
theorem test_andReg : after (regs [(1, 0xF0), (2, 0x3C), (15, 0x55)]) 0x8122
    (fun t => t.reg 1 == 0x30 && t.reg 2 == 0x3C && t.reg 15 == 0x55) = true := by decide

/-- V1.10. -/
theorem test_xorReg : after (regs [(1, 0xF0), (2, 0x3C), (15, 0x55)]) 0x8123
    (fun t => t.reg 1 == 0xCC && t.reg 2 == 0x3C && t.reg 15 == 0x55) = true := by decide

/-- V1.13, S7a. -/
theorem test_addReg : after (regs [(1, 0xFF), (2, 0x01)]) 0x8124 (fun t => t.reg 1 == 0x00 && t.reg 15 == 0x01) = true := by
  decide

/-- V1.17: VF is the destination, written first and read again. -/
theorem test_addReg_vf : after (regs [(15, 0xF0), (1, 0x20)]) 0x8F14 (fun t => t.reg 15 == 0x21) = true := by decide

/-- V1.24, S7b. -/
theorem test_subReg : after (regs [(1, 0x00), (2, 0x01), (15, 0x01)]) 0x8125
    (fun t => t.reg 1 == 0xFF && t.reg 15 == 0x00) = true := by decide

/-- V1.29. -/
theorem test_subReg_vf : after (regs [(1, 0x05), (15, 0x03)]) 0x81F5 (fun t => t.reg 1 == 0x04 && t.reg 15 == 0x01) = true := by
  decide

/-- V1.32, S7c. -/
theorem test_shrReg : after (regs [(1, 0xEE), (2, 0x03)]) 0x8126
    (fun t => t.reg 1 == 0x01 && t.reg 2 == 0x03 && t.reg 15 == 0x01) = true := by decide

/-- V1.36. -/
theorem test_shrReg_vf : after (regs [(1, 0xAA), (15, 0x03)]) 0x81F6 (fun t => t.reg 1 == 0x00 && t.reg 15 == 0x01) = true := by
  decide

/-- V1.39: the result is in V2. -/
theorem test_subnReg : after (regs [(1, 0x05), (2, 0x03), (15, 0x01)]) 0x8127
    (fun t => t.reg 1 == 0x05 && t.reg 2 == 0xFE && t.reg 15 == 0x00) = true := by decide

/-- V1.43. -/
theorem test_subnReg_vf : after (regs [(1, 0x02), (15, 0x05)]) 0x81F7 (fun t => t.reg 1 == 0x02 && t.reg 15 == 0xFF) = true := by
  decide

/-- V1.48. -/
theorem test_shlReg : after (regs [(1, 0xEE), (2, 0x81)]) 0x812E
    (fun t => t.reg 1 == 0x02 && t.reg 2 == 0x81 && t.reg 15 == 0x01) = true := by decide

/-- V1.51. -/
theorem test_shlReg_vf : after (regs [(1, 0xC1)]) 0x8F1E (fun t => t.reg 15 == 0x82) = true := by decide

/-! ### Control flow (V2) -/

/-- V2.4: the jump itself does not fault. -/
theorem test_jp : after State.reset 0x1FFF (fun t => t.pc == 0xFFF && !t.halted) = true := by decide

/-- V2.7. -/
theorem test_jpV0 : after (regs [(0, 0xFF), (15, 0x55)]) 0xBFFF (fun t => t.pc == 0x10FE) = true := by decide

/-- V2.10. -/
theorem test_call : after (atSp 15) 0x2400 (fun t => t.sp == 16 && t.stack[15] == 0x0202 && t.pc == 0x400) = true := by decide

/-- V2.11. -/
theorem test_call_overflow : faults (atSp 16) 0x2400 .stackOverflow = true := by decide

/-- V2.16. -/
theorem test_ret : after { State.reset with sp := 1, stack := State.reset.stack.set 0 0x10FE } 0x00EE
    (fun t => t.sp == 0 && t.pc == 0x10FE) = true := by decide

/-- V2.15. -/
theorem test_ret_underflow : faults (atSp 0) 0x00EE .stackUnderflow = true := by decide

/-- V2.17, V2.18. -/
theorem test_seByte : (after (regs [(10, 0x42)]) 0x3A42 (fun t => t.pc == 0x204) &&
    after (regs [(10, 0x43)]) 0x3A42 (fun t => t.pc == 0x202)) = true := by decide

/-- V2.20, V2.21. -/
theorem test_sneByte : (after (regs [(10, 0x42)]) 0x4A42 (fun t => t.pc == 0x202) &&
    after (regs [(10, 0x43)]) 0x4A42 (fun t => t.pc == 0x204)) = true := by decide

/-- V2.22, V2.23. -/
theorem test_seReg : (after (regs [(1, 7), (2, 7)]) 0x5120 (fun t => t.pc == 0x204) &&
    after (regs [(1, 7), (2, 8)]) 0x5120 (fun t => t.pc == 0x202)) = true := by decide

/-- V2.25, V2.26. -/
theorem test_sneReg : (after (regs [(1, 7), (2, 8)]) 0x9120 (fun t => t.pc == 0x204) &&
    after (regs [(1, 7), (2, 7)]) 0x9120 (fun t => t.pc == 0x202)) = true := by decide

/-! ### Timers and keypad (V3) -/

/-- V3.2: written after the decrement. -/
theorem test_ldDt : after { regs [(3, 0x0A)] with dt := 99 } 0xF315 (fun t => t.dt == 10) = true := by decide

/-- V3.4. -/
theorem test_ldFromDt : after { State.reset with dt := 10 } 0xF407 (fun t => t.reg 4 == 9 && t.dt == 9) = true := by decide

/-- V3.6: no wrap. -/
theorem test_ldFromDt_zero : after (regs [(4, 0x77)]) 0xF407 (fun t => t.reg 4 == 0 && t.dt == 0) = true := by decide

/-- V3.11. -/
theorem test_ldSt : after { regs [(5, 0x20)] with st := 9 } 0xF518 (fun t => t.st == 32) = true := by decide

/-- V3.14: a held key does not answer the wait. -/
theorem test_ldKey : after { State.reset with key := 7 } 0xF30A
    (fun t => t.waitKey == some 3 && t.waitingKey && t.reg 3 == 0 && t.key == 7 && t.pc == 0x202) = true := by decide

/-- V3.16, V3.20. -/
theorem test_skp : (after { regs [(3, 0x07)] with key := 7 } 0xE39E (fun t => t.pc == 0x204) &&
    after { regs [(3, 0x17)] with key := 7 } 0xE39E (fun t => t.pc == 0x202)) = true := by decide

/-- V3.19: the no-key value. -/
theorem test_skp_no_key : after (regs [(3, 0xFF)]) 0xE39E (fun t => t.pc == 0x204) = true := by decide

/-- V3.21, V3.23. -/
theorem test_sknp : (after { regs [(3, 0x07)] with key := 7 } 0xE3A1 (fun t => t.pc == 0x202) &&
    after (regs [(3, 0x07)]) 0xE3A1 (fun t => t.pc == 0x204)) = true := by decide

/-- V3.29, V3.33. -/
theorem test_press : ({ regs [(4, 0x99)] with waitKey := some 4 } : State).press 0x00 =
      .next { regs [(4, 0x00)] with key := 0x00 } ∧
    State.reset.press 0x10 = .refused .keyOutOfRange := ⟨rfl, rfl⟩

/-- V3.28: a release does not answer the wait. -/
theorem test_release : ({ State.reset with key := 3, waitKey := some 4 } : State).releaseKey =
    { State.reset with waitKey := some 4 } := by decide

/-! ### Index register and memory (V4) -/

/-- V4.2. -/
theorem test_ldIndex : after { State.reset with i := 0x1234 } 0xAFFF (fun t => t.i == 0x0FFF) = true := by decide

/-- V4.6, V4.7. -/
theorem test_addIndex : (after { regs [(2, 0xFF)] with i := 0xFF01 } 0xF21E (fun t => t.i == 0 && t.reg 15 == 1) &&
    after { regs [(2, 0xFF)] with i := 0xFF00 } 0xF21E (fun t => t.i == 0xFFFF && t.reg 15 == 0)) = true := by decide

/-- V4.10. -/
theorem test_addIndex_vf : after { regs [(15, 0x20)] with i := 0xFFF0 } 0xFF1E
    (fun t => t.i == 0xFFF1 && t.reg 15 == 1) = true := by decide

/-- V4.14: the low digit only. -/
theorem test_ldFont : after (regs [(0, 0x1A)]) 0xF029 (fun t => t.i == 0x0082) = true := by decide

/-- V4.21. -/
theorem test_ldBcd : after { regs [(5, 0x7B)] with i := 0x0FFD } 0xF533
    (fun t => t.readByte 0xFFD == 1 && t.readByte 0xFFE == 2 && t.readByte 0xFFF == 3) = true := by decide

/-- V4.22. -/
theorem test_ldBcd_fault : faults { regs [(5, 0x7B)] with i := 0x0FFE } 0xF533 (.memOutOfRange 0x1000) = true := by decide

/-- V4.25: V3 is not stored, I is unchanged. -/
theorem test_storeRegs : after { regs [(0, 0x11), (1, 0x22), (2, 0x33), (3, 0x44)] with i := 0x0300 } 0xF355
    (fun t => t.readByte 0x300 == 0x11 && t.readByte 0x302 == 0x33 && t.readByte 0x303 == 0 && t.i == 0x300) = true := by
  decide

/-- V4.29. -/
theorem test_storeRegs_fault : faults { State.reset with i := 0x0FFE } 0xF355 (.memOutOfRange 0x1000) = true := by decide

/-- V4.31: V3 is kept. -/
theorem test_loadRegs : after { put (regs [(3, 0x99)]) 0x300 [0xA1, 0xA2, 0xA3, 0xA4] with i := 0x0300 } 0xF365
    (fun t => t.reg 0 == 0xA1 && t.reg 2 == 0xA3 && t.reg 3 == 0x99 && t.i == 0x300) = true := by decide

/-- V4.32: x = 0 loads nothing and cannot fault. -/
theorem test_loadRegs_none : after { regs [(0, 0x99)] with i := 0xFFFF } 0xF065
    (fun t => t.reg 0 == 0x99 && !t.halted) = true := by decide

/-! ### Random and display (V5, V6) -/

/-- V5.2 for whatever byte is drawn: the bits under the mask's zeros are 0, and one byte is drawn. -/
theorem test_rnd : exec (.rnd 3 0x0F) State.reset = .next
    { State.reset with v := State.reset.v.set 3 (Config.randomByte 0 &&& 0x0F), pc := 0x202, free := 1 } := rfl

/-- V6.1. -/
theorem test_cls : after (lit (lit State.reset 0 0) 63 31) 0x00E0 (fun t => litCount t == 0 && t.pc == 0x202) = true := by
  decide +kernel

/-- V6.5: a collision, one cell cleared and one set. -/
theorem test_drw : after { lit (put (regs [(0, 10), (1, 20)]) 0x300 [0xFF, 0x81]) 10 20 with i := 0x0301 } 0xD011
    (fun t => !t.pixel 10 20 && t.pixel 17 20 && litCount t == 1 && t.reg 15 == 1) = true := by decide +kernel

/-- V6.7, S7d: clipped on both sides. -/
theorem test_drw_clipped :
    after { put (regs [(0, 60), (1, 30)]) 0x300 [0xFF, 0x81, 0xFF, 0x3C, 0xC3] with i := 0x0300 } 0xD015
      (fun t => t.pixel 60 30 && t.pixel 61 30 && t.pixel 62 30 && t.pixel 63 30 && t.pixel 60 31 && litCount t == 5 &&
        t.reg 15 == 0) = true := by decide +kernel

/-! ### Faults, reset and the host (V7, V9) -/

/-- V7.2. -/
theorem test_unknown : faults State.reset 0x0123 .unknownOpcode = true := by decide

/-- V7.12. -/
theorem test_fetch_out_of_range : (match step { State.reset with pc := 0x10FE } with
    | .next t => t.halted && t.record.cause == .fetchOutOfRange && t.record.faultPc == 0x10FE
    | _ => false) = true := by decide

/-- V9.2: the first step after a reset with an empty ROM. -/
theorem test_step_from_reset : (match step State.reset with
    | .next t => t.halted && t.record == ⟨.unknownOpcode, 0x200, 0x0000⟩
    | _ => false) = true := by decide

/-- V9.1 and V9.7. -/
theorem test_reset : (match stopped.resetWith [0x62, 0x0A, 0x63, 0x14] with
    | .next t => t.fetch == some 0x620A && t.readByte 0x203 == 0x14 && t.readByte 0x204 == 0 && t.readByte 0x09F == 0x80 &&
      t.pc == 0x200 && t.key == 0xFF && !t.halted
    | _ => false) = true := by decide

/-- P4, tick 4: while a key is awaited a tick without a key changes nothing. -/
theorem test_tick_waiting : ({ State.reset with waitKey := some 1, dt := 2 } : State).tick none =
    .next { State.reset with waitKey := some 1, dt := 2 } := rfl

/-! ### Witnesses: for each statement with hypotheses, states and operands that meet them, at the ends of their ranges -/

/-- A running state whose word at PC is given. -/
def running (w : Nat) : State := State.reset.withFetchWord 16 w

/-- The reset state with an index register. -/
def atI (i : Word) : State := { State.reset with i := i }

/-- The reset state with a program counter. -/
def atPc (pc : Word) : State := { State.reset with pc := pc }

/-- A state that awaits a key for VF. -/
def waiting : State := { State.reset with waitKey := some 15 }

theorem witness_DecodeOfEncodeGivesTheInstruction :
    (Instr.drw 15 15 15).wellFormed = true ∧ (Instr.jp 0xFFF).wellFormed = true := by decide

theorem witness_EncodeOfDecodeGivesTheWord : decodeWord 0xDABF = .ok (.drw 0xA 0xB 15) := rfl

/-- A word of every row. -/
theorem witness_DecodeFollowsTheTable_rows :
    (([(0xFFFF, 0x00E0, 0x00E0), (0xFFFF, 0x00EE, 0x00EE), (0xF000, 0x1000, 0x1FFF), (0xF000, 0x2000, 0x2FFF),
      (0xF000, 0x3000, 0x3FFF), (0xF000, 0x4000, 0x4FFF), (0xF00F, 0x5000, 0x5FF0), (0xF000, 0x6000, 0x6FFF),
      (0xF000, 0x7000, 0x7FFF), (0xF00F, 0x8000, 0x8FF0), (0xF00F, 0x8001, 0x8FF1), (0xF00F, 0x8002, 0x8FF2),
      (0xF00F, 0x8003, 0x8FF3), (0xF00F, 0x8004, 0x8FF4), (0xF00F, 0x8005, 0x8FF5), (0xF00F, 0x8006, 0x8FF6),
      (0xF00F, 0x8007, 0x8FF7), (0xF00F, 0x800E, 0x8FFE), (0xF00F, 0x9000, 0x9FF0), (0xF000, 0xA000, 0xAFFF),
      (0xF000, 0xB000, 0xBFFF), (0xF000, 0xC000, 0xCFFF), (0xF000, 0xD000, 0xDFFF), (0xF0FF, 0xE09E, 0xEF9E),
      (0xF0FF, 0xE0A1, 0xEFA1), (0xF0FF, 0xF007, 0xFF07), (0xF0FF, 0xF00A, 0xFF0A), (0xF0FF, 0xF015, 0xFF15),
      (0xF0FF, 0xF018, 0xFF18), (0xF0FF, 0xF01E, 0xFF1E), (0xF0FF, 0xF029, 0xFF29), (0xF0FF, 0xF033, 0xFF33),
      (0xF0FF, 0xF055, 0xFF55), (0xF0FF, 0xF065, 0xFF65)] : List (Word × Word × Word)).all
        (fun r => r.2.2 &&& r.1 == r.2.1)) = true := by decide

/-- A word of no row. -/
theorem witness_DecodeFollowsTheTable_unknown : decodeTable.all (fun r => !(0x0000 &&& r.mask == r.value)) = true := by decide

theorem witness_NoWordMatchesTwoRows :
    decodeTable[33]? = some ⟨0xF0FF, 0xF065, fun w => .loadRegs (fieldX w)⟩ ∧
    (DecodeRow.mk 0xF0FF 0xF065 (fun w => .loadRegs (fieldX w))).selects 0xFF65 = true := ⟨rfl, by decide⟩

theorem witness_StepRunsTheDecodedInstruction :
    (running 0x620A).running ∧ (running 0x620A).pc.toNat ≤ 4094 ∧
    (0x620A : Word).toNat = ((running 0x620A).readByte (running 0x620A).pc.toNat).toNat * 256 +
      ((running 0x620A).readByte ((running 0x620A).pc.toNat + 1)).toNat ∧
    decodeWord 0x620A = .ok (.ldByte 2 0x0A) := ⟨rfl, by decide, by decide, rfl⟩

/-- The highest PC that can be fetched from. -/
theorem witness_StepRunsTheDecodedInstruction_last :
    ((atPc 0xFFE).withFetchWord 16 0x6007).running ∧ ((atPc 0xFFE).withFetchWord 16 0x6007).pc.toNat = 4094 ∧
    ((atPc 0xFFE).withFetchWord 16 0x6007).fetch = some 0x6007 := by decide

/-- The last PC with a word and the first without, also for `current`. -/
theorem witness_CurrentReportsTheWordOrTheFetchFault :
    ((atPc 0xFFE).withFetchWord 16 0x6007).pc.toNat ≤ 4094 ∧
    (0x6007 : Word).toNat = (((atPc 0xFFE).withFetchWord 16 0x6007).readByte 0xFFE).toNat * 256 +
      (((atPc 0xFFE).withFetchWord 16 0x6007).readByte 0xFFF).toNat ∧
    4095 ≤ (atPc 0xFFF).pc.toNat := by decide

/-- Each clause: another instruction, `LD DT,Vx`, `LD ST,Vx` and `LD Vx,DT`. -/
theorem witness_TimersCountDownOnceBeforeTheInstruction :
    ([(0x6007, Instr.ldByte 0 7), (0xF315, .ldDt 3), (0xF518, .ldSt 5), (0xF407, .ldFromDt 4)].all (fun p =>
      !(running p.1).halted && (running p.1).fetch == some (BitVec.ofNat 16 p.1) && faultOf p.2 (running p.1) == none)) = true ∧
    decodeWord 0x6007 = .ok (.ldByte 0 7) ∧ decodeWord 0xF315 = .ok (.ldDt 3) ∧ decodeWord 0xF518 = .ok (.ldSt 5) ∧
    decodeWord 0xF407 = .ok (.ldFromDt 4) := ⟨by decide, rfl, rfl, rfl, rfl⟩

theorem witness_OnlyResetLeavesTheHaltedState :
    stopped.halted = true ∧ (15 : Byte).toNat ≤ 15 ∧ ([] : List Byte).length ≤ 3584 := by decide

/-- No fault due, and each of the five. -/
theorem witness_StepHaltsExactlyOnTheFiveFaults :
    (running 0x6007).faultDue = none ∧ State.reset.faultDue = some .unknownOpcode ∧
    ((atSp 16).withFetchWord 16 0x2400).faultDue = some .stackOverflow ∧
    (running 0x00EE).faultDue = some .stackUnderflow ∧
    ((atI 0xFFFF).withFetchWord 16 0xFF65).faultDue = some (.memOutOfRange 0xFFFF) ∧
    (atPc 0xFFF).faultDue = some .fetchOutOfRange ∧ State.reset.running ∧ (atPc 0xFFF).running := by decide

/-- The boundary operands on which the instructions that can fault do not; the hypothesis is empty for the others. Also for
`VfIsAFlagAfterTheSevenFlagWriters`. -/
theorem witness_InstructionsWriteOnlyTheirOwnState :
    faultOf (.call 0xFFF) (atSp 15) = none ∧ faultOf .ret (atSp 1) = none ∧ faultOf (.ldBcd 15) (atI 0xFFD) = none ∧
    faultOf (.drw 15 15 15) (atI 0xFF1) = none ∧ faultOf (.drw 0 0 0) (atI 0xFFFF) = none ∧
    faultOf (.storeRegs 15) (atI 0xFF1) = none ∧ faultOf (.storeRegs 0) (atI 0xFFFF) = none ∧
    faultOf (.loadRegs 15) (atI 0xFF1) = none ∧ faultOf (.loadRegs 0) (atI 0xFFFF) = none ∧
    faultOf .cls State.reset = none := by decide

/-- The flag clauses: a destination that is not VF. -/
theorem witness_VfIsAFlagAfterTheSevenFlagWriters : (14 : Reg) ≠ VF ∧ faultOf (.addReg 14 15) State.reset = none := by decide

/-- A running state whose step completes, and a running state whose step halts. -/
theorem witness_SoundTimerIsNeverRead : (running 0x6007).running ∧ State.reset.running ∧
    (match step (running 0x6007) with | .next t => !t.halted | _ => false) = true ∧
    (match step State.reset with | .next t => t.halted | _ => false) = true := by decide

/-- PC at both ends of what can be fetched, and the entry a `RET` takes at both ends of the stack. -/
theorem witness_PcFollowsTheFourClasses :
    (atPc 0xFFE).pc.toNat ≤ 4094 ∧ (atPc 0).pc.toNat ≤ 4094 ∧ faultOf (.seByte 0 0) (atPc 0xFFE) = none ∧
    faultOf .ret (atSp 1) = none ∧ 0 + 1 = (atSp 1).sp.val ∧ 15 + 1 = (atSp 16).sp.val := by decide

/-- The reset state with an instruction at PC meets the invariant, and a step of it answers a next state. -/
theorem witness_EveryStepKeepsTheInvariant : (running 0x620A).Inv ∧ ∃ t, step (running 0x620A) = .next t :=
  ⟨⟨by decide, fun _ => ⟨by decide, by decide, fun j h hj => absurd hj (by simp [running, State.withFetchWord, State.reset])⟩⟩,
    _, rfl⟩

theorem witness_HostOperationsKeepTheInvariant :
    (∃ t, (running 0x620A).press 15 = .next t) ∧ (∃ t, (running 0x620A).resetWith [0x12, 0x00] = .next t) ∧
    (∃ t, (running 0x620A).tick (some 15) = .next t) ∧ ∃ t, (running 0x620A).tick none = .next t :=
  ⟨⟨_, rfl⟩, ⟨_, rfl⟩, ⟨_, rfl⟩, ⟨_, rfl⟩⟩

/-- The longest ROM and one byte more; the first and last byte of a ROM; the ends of the ranges that read 0. -/
theorem witness_ResetLoadsTheRomAndClearsTheRest :
    (List.replicate 3584 (0 : Byte)).length ≤ 3584 ∧ 3584 < (List.replicate 3585 (0 : Byte)).length ∧
    3583 < (List.replicate 3584 (0 : Byte)).length ∧ 0x04F < 0x050 ∧ (0x0A0 ≤ 0x0A0 ∧ 0x1FF < 0x200) ∧
    0x200 + ([] : List Byte).length ≤ 0x200 := by
  simp only [List.length_replicate, List.length_nil]
  omega

/-- The last row of the last glyph, at 0x09F. -/
theorem witness_ResetLoadsTheRomAndClearsTheRest_font :
    (15, ([0xF0, 0x80, 0xF0, 0x80, 0x80] : List Byte)) ∈ fontRows ∧
    ([0xF0, 0x80, 0xF0, 0x80, 0x80] : List Byte)[4]? = some 0x80 ∧ 0x050 + 5 * 15 + 4 = 0x09F := by decide

/-- The selector bits of the words that the `RowDecodes` clauses of the arithmetic, jump, index, font, random, display and
key statements speak of. -/
theorem witness_RowDecodes :
    (0x6FFF : Word) &&& 0xF000 = 0x6000 ∧ (0x7FFF : Word) &&& 0xF000 = 0x7000 ∧ (0x8FF0 : Word) &&& 0xF00F = 0x8000 ∧
    (0x8FF1 : Word) &&& 0xF00F = 0x8001 ∧ (0x8FF2 : Word) &&& 0xF00F = 0x8002 ∧ (0x8FF3 : Word) &&& 0xF00F = 0x8003 ∧
    (0x1FFF : Word) &&& 0xF000 = 0x1000 ∧ (0xBFFF : Word) &&& 0xF000 = 0xB000 ∧ (0xFF0A : Word) &&& 0xF0FF = 0xF00A ∧
    (0xAFFF : Word) &&& 0xF000 = 0xA000 ∧ (0xFF29 : Word) &&& 0xF0FF = 0xF029 ∧ (0xCFFF : Word) &&& 0xF000 = 0xC000 ∧
    (0x00E0 : Word) &&& 0xFFFF = 0x00E0 := by decide

/-- One register twice, for the clause of equal operands. -/
theorem witness_LogicIsBitwiseAndLeavesVf : (7 : Nat) < 8 ∧ (15 : Reg) = 15 := by decide

/-- The four cases of operands that are VF or not, with the sum's carry at its boundary. -/
theorem witness_AddRegSetsCarryThenSum :
    (regs [(1, 0xFF), (2, 0x01)]).reg 1 = 0xFF ∧ (1 : Nat) = (if 255 + 1 > 255 then 1 else 0) ∧
    (0 : Nat) = (if 255 + 0 > 255 then 1 else 0) ∧ ((1 : Reg) ≠ VF ∧ (2 : Reg) ≠ VF) ∧ ((15 : Reg) = VF ∧ (14 : Reg) ≠ VF) ∧
    ((14 : Reg) ≠ VF ∧ (15 : Reg) = VF) ∧ ((15 : Reg) = VF ∧ (15 : Reg) = VF) := by decide

/-- The flag at its boundary, for both differences; the operand cases are those of `AddRegSetsCarryThenSum`. -/
theorem witness_SubRegSetsNotBorrowThenDifference :
    (1 : Nat) = (if 66 ≥ 66 then 1 else 0) ∧ (0 : Nat) = (if 66 ≥ 67 then 1 else 0) ∧ (regs [(1, 66), (2, 66)]).reg 1 = 66 ∧
    (regs [(1, 66), (2, 67)]).reg 2 = 67 := by decide

theorem witness_SubnRegWritesVy :
    (1 : Nat) = (if 9 ≥ 9 then 1 else 0) ∧ (0 : Nat) = (if 3 ≥ 5 then 1 else 0) ∧ (regs [(1, 5), (2, 3)]).reg 2 = 3 := by decide

/-- The source of a shift at both ends; the operand cases are those of `AddRegSetsCarryThenSum`. Also for
`ShlRegShiftsVyLeft`. -/
theorem witness_ShrRegShiftsVyRight :
    255 = ((regs [(2, 0xFF)]).reg 2).toNat ∧ 0 = ((regs [(2, 0x00)]).reg 2).toNat ∧ (1 : Reg) ≠ VF ∧ (2 : Reg) ≠ VF := by decide

theorem witness_ShlRegShiftsVyLeft : 128 = ((regs [(2, 0x80)]).reg 2).toNat ∧ 127 = ((regs [(2, 0x7F)]).reg 2).toNat := by
  decide

/-- A target that cannot be fetched from. -/
theorem witness_JumpGoesToTheAddress : State.reset.running ∧ (0xFFF : Addr) = 0xFFF := by decide

/-- V0 = 0, and a sum of exactly 4095. -/
theorem witness_JumpV0AddsV0WithoutWrap : (regs [(0, 0)]).reg 0 = 0 ∧ (regs [(0, 1)]).running ∧
    (match exec (.jpV0 0xFFE) (regs [(0, 1)]) with | .next t => t.pc.toNat == 4095 | _ => false) = true := by decide

theorem witness_CallPushesOrOverflows : (atSp 15).sp.val < 16 ∧ (atSp 0).sp.val < 16 ∧ (atSp 16).sp.val = 16 := by decide

theorem witness_ReturnPopsOrUnderflows :
    0 < (atSp 1).sp.val ∧ 0 + 1 = (atSp 1).sp.val ∧ 15 + 1 = (atSp 16).sp.val ∧ (atSp 0).sp.val = 0 := by decide

/-- The state behind the call itself keeps its stack, and the last entry below a depth of 15 is live. -/
theorem witness_ReturnComesBackBehindTheCall : (atSp 15).sp.val < 16 ∧ (14 : Nat) < (atSp 15).sp.val ∧
    (match exec (.call 0xFFF) (atSp 15) with | .next t => t.sp == 16 && t.stack == t.stack | _ => false) = true := by decide

theorem witness_ByteSkipsCompareVxWithTheByte :
    (regs [(10, 0x42)]).reg 10 = 0x42 ∧ (regs [(10, 0x43)]).reg 10 ≠ 0x42 := by decide

theorem witness_RegSkipsCompareVxWithVy :
    (regs [(1, 7), (2, 7)]).reg 1 = (regs [(1, 7), (2, 7)]).reg 2 ∧
    (regs [(1, 7), (2, 8)]).reg 1 ≠ (regs [(1, 7), (2, 8)]).reg 2 := by decide

/-- `LD DT,V3` and behind it `LD V4,DT`. -/
theorem witness_DelayTimerReadsBackOneLess :
    (put State.reset 0x200 [0xF3, 0x15, 0xF4, 0x07]).running ∧
    (put State.reset 0x200 [0xF3, 0x15, 0xF4, 0x07]).fetch = some 0xF315 ∧
    (match step (put State.reset 0x200 [0xF3, 0x15, 0xF4, 0x07]) with | .next t => t.fetch == some 0xF407 | _ => false) = true ∧
    decodeWord 0xF315 = .ok (.ldDt 3) ∧ decodeWord 0xF407 = .ok (.ldFromDt 4) :=
  ⟨rfl, by decide, by decide, rfl, rfl⟩

theorem witness_LoadKeyArmsTheWaitLatch : State.reset.running ∧ (15 : Byte).toNat ≤ 15 := by decide

/-- The latch equal to Vx and not, with a key and with none. -/
theorem witness_KeySkipsCompareVxWithTheLatch :
    (regs [(3, 0xFF)]).reg 3 = (regs [(3, 0xFF)]).key ∧ (regs [(3, 0x0F)]).reg 3 ≠ (regs [(3, 0x0F)]).key ∧
    ({ regs [(3, 0x0F)] with key := 0x0F } : State).reg 3 = 0x0F := by decide

/-- The highest key and one above it, with a wait and without. -/
theorem witness_PressWritesTheKeyAndAnswersTheWait :
    15 < (0x10 : Byte).toNat ∧ (0x0F : Byte).toNat ≤ 15 ∧ State.reset.running ∧ State.reset.waitKey = none ∧
    waiting.running ∧ waiting.waitKey = some 15 := by decide

theorem witness_ReleaseClearsOnlyTheKeyLatch : stopped.halted = true ∧ waiting.running := by decide

/-- A step that arms the wait, a step that does not, and a press. -/
theorem witness_WaitingKeyHoldsFromLoadKeyToPress :
    (running 0xF30A).running ∧ (running 0xF30A).fetch = some 0xF30A ∧ faultOf (.ldKey 3) (running 0xF30A) = none ∧
    (running 0x6007).fetch = some 0x6007 ∧ (15 : Byte).toNat ≤ 15 ∧ decodeWord 0xF30A = .ok (.ldKey 3) ∧
    decodeWord 0x6007 = .ok (.ldByte 0 7) := ⟨rfl, by decide, by decide, by decide, by decide, rfl, rfl⟩

theorem witness_IdleTicksFreezeAWaitingEngine :
    waiting.running ∧ waiting.waitKey = some 15 ∧ (0x0F : Byte).toNat ≤ 15 := by decide

/-- The carry of the 16-bit sum at its boundary, with x = 0xF and not. -/
theorem witness_AddIndexSetsCarryThenSum :
    (1 : Nat) = (if (atI 0xFFFF).i.toNat + 1 > 65535 then 1 else 0) ∧
    (0 : Nat) = (if (atI 0xFFFF).i.toNat + 0 > 65535 then 1 else 0) ∧ (14 : Reg) ≠ VF ∧ (15 : Reg) = VF := by decide

theorem witness_BcdStoresThreeDigits : (atI 0xFFD).i.toNat + 2 ≤ 4095 ∧ 4096 ≤ (atI 0xFFE).i.toNat + 2 := by decide

/-- Nothing to move from an I outside RAM, the last block inside RAM, and the first outside. Also for
`LoadRegsLoadsTheFirstX`. -/
theorem witness_StoreRegsStoresTheFirstX :
    ((0 : Reg).val = 0 ∨ (atI 0xFFFF).i.toNat + (0 : Reg).val ≤ 4096) ∧ (atI 0xFF1).i.toNat + (15 : Reg).val ≤ 4096 ∧
    (14 : Reg).val < (15 : Reg).val ∧ 0 < (15 : Reg).val ∧ 4096 < (atI 0xFF2).i.toNat + (15 : Reg).val := by decide

theorem witness_LoadRegsLoadsTheFirstX :
    ((0 : Reg).val = 0 ∨ (atI 0xFFFF).i.toNat + (0 : Reg).val ≤ 4096) ∧ (atI 0xFF1).i.toNat + (15 : Reg).val ≤ 4096 ∧
    0 < (1 : Reg).val ∧ 4096 < (atI 0x1000).i.toNat + (1 : Reg).val := by decide

theorem witness_StoredRegsLoadBack :
    (atI 0xFF1).i.toNat + (15 : Reg).val ≤ 4096 ∧ (14 : Reg).val < (15 : Reg).val ∧ ¬ (15 : Reg).val < (15 : Reg).val := by decide

/-- The last place where a store reaches the next instruction. -/
theorem witness_StoreIsSeenByTheNextFetch :
    let s : State := { atI 0xFFE with pc := 0xFFC }
    s.i.toNat = s.pc.toNat + 2 ∧ s.i.toNat + (2 : Reg).val ≤ 4096 ∧ 2 ≤ (2 : Reg).val := by decide

/-- The mask bit of a 0. -/
theorem witness_RandomIsOneDrawnByteMasked : (0x0F : Byte).getLsbD 7 = false := by decide

/-- No rows with an I outside RAM, the last sprite inside RAM, the first outside. Also for `CollisionMeansALitCellWentOff`,
`ClippedPixelsAreDropped` and `DrawingTwiceRestoresTheDisplay`. -/
theorem witness_DrawXorsTheSprite :
    (0 = 0 ∨ (atI 0xFFFF).i.toNat + 0 ≤ 4096) ∧ (atI 0xFF1).i.toNat + 15 ≤ 4096 ∧ 0 < 1 ∧
    4096 < (atI 0x1000).i.toNat + 1 ∧ 63 < 64 ∧ 31 < 32 := by decide

/-- The last row in RAM, with the pair (0, 0) at the last cell of the display, lit and under a bit of 1. -/
theorem witness_CollisionMeansALitCellWentOff :
    let s : State := { lit (put (regs [(0, 63), (1, 31)]) 0xFFF [0x80]) 63 31 with i := 0xFFF }
    (s.i.toNat + 1 ≤ 4096 ∧ 0 < 1 ∧ 0 < 8 ∧ (s.reg 0).toNat + 0 < 64 ∧ (s.reg 1).toNat + 0 < 32 ∧
      (s.readByte (s.i.toNat + 0)).getLsbD (7 - 0) = true ∧ s.pixel ((s.reg 0).toNat + 0) ((s.reg 1).toNat + 0) = true) ∧
    ∃ t, exec (.drw 0 1 1) s = .next t := ⟨by decide +kernel, _, rfl⟩

/-- Both coordinates at the first value that is clipped. -/
theorem witness_ClippedPixelsAreDropped :
    64 ≤ ((regs [(0, 64)]).reg 0).toNat ∧ 32 ≤ ((regs [(1, 32)]).reg 1).toNat ∧
    (7 : Nat) < ((regs [(0, 8), (1, 8)]).reg 0).toNat ∧ ((regs [(0, 8), (1, 8)]).reg 0).toNat + 8 ≤ 16 ∧
    (7 : Nat) < ((regs [(0, 8), (1, 8)]).reg 1).toNat ∧ ((regs [(0, 8), (1, 8)]).reg 1).toNat + 5 ≤ 13 := by decide

/-- Two coordinates that no flag can change, and a coordinate in VF that the first draw's flag leaves as it was. -/
theorem witness_DrawingTwiceRestoresTheDisplay :
    (0 : Reg) ≠ VF ∧ (1 : Reg) ≠ VF ∧
    (match exec (.drw 15 1 1) (atI 0xFFF) with
      | .next t => t.reg 15 == (atI 0xFFF).reg 15 && t.reg 1 == (atI 0xFFF).reg 1
      | _ => false) = true := by decide +kernel

end Sys2Proof.Tests
end

section
/-! The decode table: no word is selected by two of its rows, so each row decodes the words it selects (spec 30 R74, R75);
and encoding puts such a word together again (R82). -/

namespace Sys2Proof

open Sys2Proof.Machine

/-! ### What the decoder answers, by the rows that select the word -/

theorem DecodeRow.selects_iff {r : DecodeRow} {w : Word} : r.selects w = true ↔ w &&& r.mask = r.value :=
  beq_iff_eq

/-- Any two rows differ on a bit that both of them test (R75). -/
theorem decodeTable_pairwise :
    decodeTable.Pairwise (fun r q => r.value &&& q.mask ≠ q.value &&& r.mask) := by decide

theorem decodeTable_row_unique {r q : DecodeRow} {w : Word} (hr : r ∈ decodeTable) (hq : q ∈ decodeTable)
    (hrw : r.selects w = true) (hqw : q.selects w = true) : r = q := by
  by_contra hne
  have hsymm : Std.Symm fun r q : DecodeRow => r.value &&& q.mask ≠ q.value &&& r.mask := ⟨fun _ _ => Ne.symm⟩
  have disagree : r.value &&& q.mask ≠ q.value &&& r.mask := decodeTable_pairwise.forall hr hq hne
  exact disagree (DecodeRow.agree_of_selects hrw hqw)

theorem decodeWord_of_selects {r : DecodeRow} {w : Word} (hr : r ∈ decodeTable) (hw : r.selects w = true) :
    decodeWord w = .ok (r.build w) := by
  cases hfind : decodeTable.find? (fun r => r.selects w) with
  | none => exact absurd hw (List.find?_eq_none.mp hfind r hr)
  | some q =>
    obtain rfl : r = q := decodeTable_row_unique hr (List.mem_of_find?_eq_some hfind) hw
      (List.find?_some (p := (DecodeRow.selects · w)) hfind)
    rw [decodeWord, hfind]

theorem decodeWord_of_selects_none {w : Word} (h : ∀ r ∈ decodeTable, r.selects w ≠ true) :
    decodeWord w = .error (.unknown w) := by
  rw [decodeWord, List.find?_eq_none.mpr h]

/-- A recognised word is selected by a row of the table, which built its instruction. -/
theorem exists_row_of_decodeWord {w : Word} {i : Instr} (h : decodeWord w = .ok i) :
    ∃ r ∈ decodeTable, r.selects w = true ∧ r.build w = i := by
  by_cases hrow : ∃ r ∈ decodeTable, r.selects w = true
  · obtain ⟨r, hr, hw⟩ := hrow
    rw [decodeWord_of_selects hr hw] at h
    exact ⟨r, hr, hw, Except.ok.inj h⟩
  · rw [decodeWord_of_selects_none fun r hr hw => hrow ⟨r, hr, hw⟩] at h
    cases h

/-! ### The fields by arithmetic (R71) -/

theorem fieldX_eq_arithX (w : Word) : fieldX w = arithX w := by
  apply Fin.ext
  simp [fieldX, arithX, Nat.shiftRight_eq_div_pow]

theorem fieldY_eq_arithY (w : Word) : fieldY w = arithY w := by
  apply Fin.ext
  simp [fieldY, arithY, Nat.shiftRight_eq_div_pow]

theorem fieldN_eq_arithN (w : Word) : fieldN w = arithN w := by
  simp [fieldN, arithN]

theorem fieldNN_eq_arithNN (w : Word) : fieldNN w = arithNN w := by
  simp [fieldNN, arithNN, BitVec.extractLsb']

theorem fieldNNN_eq_arithNNN (w : Word) : fieldNNN w = arithNNN w := by
  simp [fieldNNN, arithNNN, BitVec.extractLsb']

/-! ### The round trip of a row (R82) -/

/-- Every instruction the row builds from a word it selects is well-formed and encodes to that word. -/
def DecodeRow.RoundTrips (r : DecodeRow) : Prop :=
  ∀ w : Word, w &&& r.mask = r.value → (r.build w).wellFormed = true ∧ encode (r.build w) = w

theorem eq_of_and_allOnes {w v : Word} (h : w &&& 0xFFFF = v) : v = w :=
  h.symm.trans BitVec.and_allOnes

theorem fieldN_lt (w : Word) : fieldN w < 16 := (w.extractLsb' 0 4).isLt

theorem decodeRowsControl_roundTrip : ∀ r ∈ decodeRowsControl, r.RoundTrips := by
  simp only [decodeRowsControl, List.forall_mem_cons]
  exact ⟨fun _ h => ⟨rfl, eq_of_and_allOnes h⟩, fun _ h => ⟨rfl, eq_of_and_allOnes h⟩,
    fun _ h => ⟨rfl, formNNN_field 0x1 h⟩, fun _ h => ⟨rfl, formNNN_field 0x2 h⟩,
    fun _ h => ⟨rfl, formXNN_field 0x3 h⟩, fun _ h => ⟨rfl, formXNN_field 0x4 h⟩,
    fun _ h => ⟨rfl, formXY_field 0x5 0x0 h⟩,
    fun _ h => ⟨rfl, formXNN_field 0x6 h⟩, fun _ h => ⟨rfl, formXNN_field 0x7 h⟩, List.forall_mem_nil _⟩

theorem decodeRowsLogic_roundTrip : ∀ r ∈ decodeRowsLogic, r.RoundTrips := by
  simp only [decodeRowsLogic, List.forall_mem_cons, List.not_mem_nil, false_implies, implies_true, and_true]
  and_intros <;> exact fun _ h => ⟨rfl, formXY_field 0x8 _ h⟩

/-- The one row whose operand the type does not bound is `DRW`, whose height is a field of four bits. -/
theorem decodeRowsMiddle_roundTrip : ∀ r ∈ decodeRowsMiddle, r.RoundTrips := by
  simp only [decodeRowsMiddle, List.forall_mem_cons]
  exact ⟨fun _ h => ⟨rfl, formXY_field 0x9 0x0 h⟩,
    fun _ h => ⟨rfl, formNNN_field 0xA h⟩, fun _ h => ⟨rfl, formNNN_field 0xB h⟩,
    fun _ h => ⟨rfl, formXNN_field 0xC h⟩,
    fun w h => ⟨decide_eq_true (fieldN_lt w), formXYN_field 0xD h⟩,
    fun _ h => ⟨rfl, formX_field 0xE 0x9E h⟩, fun _ h => ⟨rfl, formX_field 0xE 0xA1 h⟩, List.forall_mem_nil _⟩

theorem decodeRowsTimersMemory_roundTrip : ∀ r ∈ decodeRowsTimersMemory, r.RoundTrips := by
  simp only [decodeRowsTimersMemory, List.forall_mem_cons, List.not_mem_nil, false_implies, implies_true, and_true]
  and_intros <;> exact fun _ h => ⟨rfl, formX_field 0xF _ h⟩

theorem decodeTable_roundTrip : ∀ r ∈ decodeTable, r.RoundTrips := by
  simp only [decodeTable, List.forall_mem_append]
  exact ⟨⟨⟨decodeRowsControl_roundTrip, decodeRowsLogic_roundTrip⟩, decodeRowsMiddle_roundTrip⟩,
    decodeRowsTimersMemory_roundTrip⟩

theorem textOfWord_of_decodeWord {w : Word} {i : Instr} (h : decodeWord w = .ok i) : textOfWord w = instrText i := by
  rw [textOfWord, h]

/-- Settles O2: the row that selects the word makes the round trip. -/
theorem encodeOfDecodeGivesTheWord : Obligations.EncodeOfDecodeGivesTheWord := by
  intro w i hi
  obtain ⟨r, hr, hw, rfl⟩ := exists_row_of_decodeWord hi
  obtain ⟨hwf, henc⟩ := decodeTable_roundTrip r hr w (DecodeRow.selects_iff.mp hw)
  exact ⟨hwf, henc, henc.symm ▸ hi, textOfWord_of_decodeWord hi⟩

/-! ### The table row by row (R74) -/

theorem rowDecodes_of_mem {r : DecodeRow} (hr : r ∈ decodeTable) : RowDecodes r.mask r.value r.build :=
  fun _ hw => decodeWord_of_selects hr (DecodeRow.selects_iff.mpr hw)

/-- Settles O3: its 34 clauses and its list of selectors are the decode table written out, with the fields by arithmetic. -/
theorem decodeFollowsTheTable : Obligations.DecodeFollowsTheTable := by
  have table : (∀ r ∈ decodeTable, RowDecodes r.mask r.value r.build) ∧
      ∀ w : Word, (∀ r ∈ decodeTable, w &&& r.mask ≠ r.value) → decodeWord w = .error (.unknown w) :=
    ⟨fun _ => rowDecodes_of_mem,
      fun _ h => decodeWord_of_selects_none fun r hr hw => h r hr (DecodeRow.selects_iff.mp hw)⟩
  simpa only [Obligations.DecodeFollowsTheTable, decodeTable, decodeRowsControl, decodeRowsLogic, decodeRowsMiddle,
    decodeRowsTimersMemory, List.cons_append, List.nil_append, List.forall_mem_cons, List.not_mem_nil, false_implies,
    implies_true, true_and, and_true, and_assoc,
    fieldX_eq_arithX, fieldY_eq_arithY, fieldN_eq_arithN, fieldNN_eq_arithNN, fieldNNN_eq_arithNNN] using table

end Sys2Proof
end

section
/-! Loads, `ADD Vx,byte` and the bitwise operations (spec 41 R100 to R105): each writes Vx and advances PC. -/

namespace Sys2Proof.Machine

/-! ### Writing one register and going to the next instruction -/

theorem State.reg_advance_setReg_self (s : State) (x : Reg) (b : Byte) : (s.setReg x b).advance.reg x = b := by
  rw [State.advance_reg, State.setReg_reg, if_pos rfl]

/-- The frame of every instruction that only writes one register. -/
theorem State.changesOnly_advance_setReg (s : State) (x : Reg) (b : Byte) :
    ChangesOnly (PcAndRegs [x]) s (s.setReg x b).advance := by
  intro p hp
  cases p with
  | pc => exact absurd (.inl rfl) hp
  | reg r =>
    have hne : x ≠ r := fun e => hp (.inr ⟨r, List.mem_singleton.mpr e.symm, rfl⟩)
    rw [Part.kept, State.advance_reg, State.setReg_reg, if_neg hne]
  | _ => rfl

end Sys2Proof.Machine

namespace Sys2Proof

open Sys2Proof.Machine

/-! ### Rows with the operands x, nn and x, y, their fields by arithmetic (R71) -/

theorem rowDecodes_xnn_of_mem {mask value : Word} (build : Reg → Byte → Instr)
    (h : ⟨mask, value, fun w => build (fieldX w) (fieldNN w)⟩ ∈ decodeTable) :
    RowDecodes mask value (fun w => build (arithX w) (arithNN w)) := by
  simpa only [fieldX_eq_arithX, fieldNN_eq_arithNN] using rowDecodes_of_mem h

theorem rowDecodes_xy_of_mem {mask value : Word} (build : Reg → Reg → Instr)
    (h : ⟨mask, value, fun w => build (fieldX w) (fieldY w)⟩ ∈ decodeTable) :
    RowDecodes mask value (fun w => build (arithX w) (arithY w)) := by
  simpa only [fieldX_eq_arithX, fieldY_eq_arithY] using rowDecodes_of_mem h

/-! ### The obligations -/

/-- Settles O19: the state reached is `s` with nn in Vx and PC advanced. -/
theorem loadByteWritesVx : Obligations.LoadByteWritesVx :=
  ⟨rowDecodes_xnn_of_mem .ldByte (by simp [decodeTable, decodeRowsControl]), fun x nn s =>
    ⟨(s.setReg x nn).advance, rfl, s.reg_advance_setReg_self x nn, rfl, s.changesOnly_advance_setReg x nn⟩⟩

/-- Settles O20: the byte written is the sum of bytes, which wraps at 256. -/
theorem addByteWrapsAndWritesNoFlag : Obligations.AddByteWrapsAndWritesNoFlag := by
  refine ⟨rowDecodes_xnn_of_mem .addByte (by simp [decodeTable, decodeRowsControl]), fun x nn s =>
    ⟨(s.setReg x (s.reg x + nn)).advance, rfl, ?_, rfl, s.changesOnly_advance_setReg x _⟩⟩
  rw [State.reg_advance_setReg_self, BitVec.toNat_add]

/-- Settles O21: Vy keeps its value also as the destination, since the byte written there is its own. -/
theorem loadRegCopiesVy : Obligations.LoadRegCopiesVy := by
  refine ⟨rowDecodes_xy_of_mem .ldReg (by simp [decodeTable, decodeRowsLogic]), fun x y s =>
    ⟨(s.setReg x (s.reg y)).advance, rfl, s.reg_advance_setReg_self x _, ?_, rfl, s.changesOnly_advance_setReg x _⟩⟩
  rw [State.advance_reg, State.setReg_reg, ite_self]

/-- Settles O22: Vx receives the bitwise combination of the two bytes; of a byte with itself, `OR` and `AND` give that byte
and `XOR` gives 0. -/
theorem logicIsBitwiseAndLeavesVf : Obligations.LogicIsBitwiseAndLeavesVf := by
  refine ⟨rowDecodes_xy_of_mem .orReg (by simp [decodeTable, decodeRowsLogic]),
    rowDecodes_xy_of_mem .andReg (by simp [decodeTable, decodeRowsLogic]),
    rowDecodes_xy_of_mem .xorReg (by simp [decodeTable, decodeRowsLogic]), fun x y s =>
    ⟨⟨(s.setReg x (s.reg x ||| s.reg y)).advance, rfl, fun k _ => ?_, ?_, rfl, s.changesOnly_advance_setReg x _⟩,
      ⟨(s.setReg x (s.reg x &&& s.reg y)).advance, rfl, fun k _ => ?_, ?_, rfl, s.changesOnly_advance_setReg x _⟩,
      ⟨(s.setReg x (s.reg x ^^^ s.reg y)).advance, rfl, fun k _ => ?_, ?_, rfl, s.changesOnly_advance_setReg x _⟩⟩⟩
  · rw [State.reg_advance_setReg_self, BitVec.getLsbD_or]
  · rintro rfl
    rw [State.reg_advance_setReg_self, BitVec.or_self]
  · rw [State.reg_advance_setReg_self, BitVec.getLsbD_and]
  · rintro rfl
    rw [State.reg_advance_setReg_self, BitVec.and_self]
  · rw [State.reg_advance_setReg_self, BitVec.getLsbD_xor]
  · rintro rfl
    exact (State.reg_advance_setReg_self ..).trans BitVec.xor_self

end Sys2Proof
end

section
/-! The wait latch (spec 43 R143, R147): `LD Vx,K` arms it with x, and the press that follows answers it. -/

namespace Sys2Proof.Machine

/-! ### The wait latch armed, and answered by a press -/

theorem State.waitKeyByte_toNat_of_waiting {s : State} {r : Reg} (hw : s.waitKey = some r) :
    s.waitKeyByte.toNat = r.val := by
  rw [State.waitKeyByte, hw, BitVec.toNat_ofNat]
  omega

/-- The frame of arming the wait latch. -/
theorem State.changesOnly_advance_setWaitKey (s : State) (r : Option Reg) :
    ChangesOnly (Among [.pc, .waitKey]) s (s.setWaitKey r).advance := by
  intro p hp
  cases p with
  | pc => exact absurd (by simp) hp
  | waitKey => exact absurd (by simp) hp
  | _ => rfl

/-- The press that answers a wait for `r`: its key is in `r`, nothing waits any more, and PC is where it was. -/
theorem State.press_answers_wait {s : State} {k : Byte} {r : Reg} (hk : k.toNat ≤ 15) (h : s.running)
    (hw : s.waitKey = some r) :
    ∃ u, s.press k = .next u ∧ u.reg r = k ∧ u.waitingKey = false ∧ u.pc = s.pc := by
  refine ⟨_, State.press_of_waiting hk h hw, ?_, State.waitingKey_eq _, rfl⟩
  rw [State.setWaitKey_reg, State.setReg_reg, if_pos rfl]

end Sys2Proof.Machine

namespace Sys2Proof

open Sys2Proof.Machine

/-- A row with the operand x alone, its field by arithmetic (R71). -/
theorem rowDecodes_x_of_mem {mask value : Word} (build : Reg → Instr)
    (h : ⟨mask, value, fun w => build (fieldX w)⟩ ∈ decodeTable) :
    RowDecodes mask value (fun w => build (arithX w)) := by
  simpa only [fieldX_eq_arithX] using rowDecodes_of_mem h

/-- Settles O38: the state reached is `s` waiting for x with PC advanced, whatever it waited for before; it runs if `s`
does, so the press finds the wait for x. -/
theorem loadKeyArmsTheWaitLatch : Obligations.LoadKeyArmsTheWaitLatch :=
  ⟨rowDecodes_x_of_mem .ldKey (by simp [decodeTable, decodeRowsTimersMemory]), fun x s =>
    ⟨(s.setWaitKey (some x)).advance, rfl, State.waitKeyByte_toNat_of_waiting rfl, State.waitingKey_eq _, rfl,
      s.changesOnly_advance_setWaitKey (some x), fun _ hrun hk => State.press_answers_wait hk hrun rfl⟩⟩

end Sys2Proof
end

section
/-! The index register (spec 44 R160, R162): `LD I,addr` and `LD F,Vx` each write I and advance PC. -/

namespace Sys2Proof.Machine

/-! ### The values written to I -/

theorem addrWord_toNat (nnn : Addr) : (addrWord nnn).toNat = nnn.toNat :=
  BitVec.toNat_setWidth_of_le (by decide)

/-- The mask 0x0F of R162 is the remainder by 16. -/
theorem lowDigit_toNat (b : Byte) : (b &&& 0x0F).toNat = b.toNat % 16 :=
  (BitVec.toNat_and b 0x0F).trans (Nat.and_two_pow_sub_one_eq_mod b.toNat 4)

theorem glyphAddr_toNat (b : Byte) : (glyphAddr b).toNat = 0x050 + b.toNat % 16 * 5 := by
  rw [glyphAddr, Config.fontBase, BitVec.toNat_ofNat, lowDigit_toNat]
  omega

/-! ### Writing I and going to the next instruction -/

/-- The frame of every instruction that only writes I. -/
theorem State.changesOnly_advance_setIndex (s : State) (w : Word) :
    ChangesOnly (Among [.pc, .index]) s (s.setIndex w).advance := by
  intro p hp
  cases p with
  | pc => exact absurd (by simp) hp
  | index => exact absurd (by simp) hp
  | _ => rfl

end Sys2Proof.Machine

namespace Sys2Proof

open Sys2Proof.Machine

/-- A row with the operand nnn alone, its field by arithmetic (R71). -/
theorem rowDecodes_nnn_of_mem {mask value : Word} (build : Addr → Instr)
    (h : ⟨mask, value, fun w => build (fieldNNN w)⟩ ∈ decodeTable) :
    RowDecodes mask value (fun w => build (arithNNN w)) := by
  simpa only [fieldNNN_eq_arithNNN] using rowDecodes_of_mem h

/-- Settles O44: the state reached is `s` with nnn in I and PC advanced; an address of 12 bits is below 4096. -/
theorem loadIndexWritesI : Obligations.LoadIndexWritesI :=
  ⟨rowDecodes_nnn_of_mem .ldIndex (by simp [decodeTable, decodeRowsMiddle]), fun nnn s =>
    ⟨(s.setIndex (addrWord nnn)).advance, rfl, addrWord_toNat nnn, (addrWord_toNat nnn).trans_lt nnn.isLt, rfl,
      s.changesOnly_advance_setIndex (addrWord nnn)⟩⟩

/-- Settles O46: the state reached is `s` with the glyph's address in I and PC advanced; the address is computed from Vx
alone. -/
theorem loadFontPointsIAtTheGlyph : Obligations.LoadFontPointsIAtTheGlyph :=
  ⟨rowDecodes_x_of_mem .ldFont (by simp [decodeTable, decodeRowsTimersMemory]), fun x s =>
    ⟨(s.setIndex (glyphAddr (s.reg x))).advance, rfl, glyphAddr_toNat (s.reg x), rfl,
      s.changesOnly_advance_setIndex (glyphAddr (s.reg x))⟩⟩

end Sys2Proof
end

section
/-! `CLS` (spec 46 R185): it writes the blank display and advances PC, so on a blank display it only advances PC. -/

namespace Sys2Proof.Machine

@[simp] theorem State.setDisp_pixel (s : State) (d : Display) (xx yy : Nat) :
    (s.setDisp d).pixel xx yy = pixelOf d xx yy := rfl

/-- The frame of going to the next instruction. -/
theorem State.changesOnly_advance (s : State) : ChangesOnly (Among [.pc]) s s.advance := by
  intro p hp
  cases p with
  | pc => exact absurd (by simp) hp
  | _ => rfl

/-- The frame of every instruction that only writes the display. -/
theorem State.changesOnly_advance_setDisp (s : State) (d : Display) :
    ChangesOnly (fun p => p = .pc ∨ ∃ xx yy, p = .cell xx yy) s (s.setDisp d).advance := by
  intro p hp
  cases p with
  | pc => exact absurd (.inl rfl) hp
  | cell xx yy => exact absurd (.inr ⟨xx, yy, rfl⟩) hp
  | _ => rfl

theorem State.pixel_advance_setDisp_blank (s : State) (xx yy : Nat) :
    (s.setDisp blankDisplay).advance.pixel xx yy = false := by
  rw [State.advance_pixel, State.setDisp_pixel, pixelOf_blank]

theorem State.setDisp_self (s : State) : s.setDisp s.disp = s := rfl

theorem exec_cls (s : State) : exec .cls s = .next (s.setDisp blankDisplay).advance := rfl

theorem exec_cls_of_blank {s : State} (h : s.disp = blankDisplay) : exec .cls s = .next s.advance := by
  rw [exec_cls, ← h, State.setDisp_self]

end Sys2Proof.Machine

namespace Sys2Proof

open Sys2Proof.Machine

/-- Settles O53: the state reached is `s` with the blank display and PC advanced; there the second `CLS` finds the display
blank already. -/
theorem clsTurnsEveryCellOff : Obligations.ClsTurnsEveryCellOff := by
  refine ⟨rowDecodes_of_mem (r := ⟨0xFFFF, 0x00E0, fun _ => .cls⟩) (by simp [decodeTable, decodeRowsControl]), fun s => ?_⟩
  let t := (s.setDisp blankDisplay).advance
  exact ⟨t, t.advance, exec_cls s, s.pixel_advance_setDisp_blank, rfl, s.changesOnly_advance_setDisp blankDisplay,
    exec_cls_of_blank rfl, rfl, t.changesOnly_advance⟩

end Sys2Proof
end

section
/-! Words and instructions both ways: every encoded instruction decodes to itself (spec 30 R82), no word has two rows (R75),
and the words with no row are those of R77. -/

namespace Sys2Proof

open Sys2Proof.Machine

/-! ### Encode, then decode (R82) -/

/-- Every instruction's own row selects its word, and reads the instruction back from it. -/
theorem rowMatch : ∀ i : Instr, Laws.RowMatch.Statement i
  | .cls => Laws.RowMatch.cls
  | .ret => Laws.RowMatch.ret
  | .jp nnn => Laws.RowMatch.jp nnn
  | .call nnn => Laws.RowMatch.call nnn
  | .seByte x nn => Laws.RowMatch.seByte x nn
  | .sneByte x nn => Laws.RowMatch.sneByte x nn
  | .seReg x y => Laws.RowMatch.seReg x y
  | .ldByte x nn => Laws.RowMatch.ldByte x nn
  | .addByte x nn => Laws.RowMatch.addByte x nn
  | .ldReg x y => Laws.RowMatch.ldReg x y
  | .orReg x y => Laws.RowMatch.orReg x y
  | .andReg x y => Laws.RowMatch.andReg x y
  | .xorReg x y => Laws.RowMatch.xorReg x y
  | .addReg x y => Laws.RowMatch.addReg x y
  | .subReg x y => Laws.RowMatch.subReg x y
  | .shrReg x y => Laws.RowMatch.shrReg x y
  | .subnReg x y => Laws.RowMatch.subnReg x y
  | .shlReg x y => Laws.RowMatch.shlReg x y
  | .sneReg x y => Laws.RowMatch.sneReg x y
  | .ldIndex nnn => Laws.RowMatch.ldIndex nnn
  | .jpV0 nnn => Laws.RowMatch.jpV0 nnn
  | .rnd x nn => Laws.RowMatch.rnd x nn
  | .drw x y n => Laws.RowMatch.drw x y n
  | .skp x => Laws.RowMatch.skp x
  | .sknp x => Laws.RowMatch.sknp x
  | .ldFromDt x => Laws.RowMatch.ldFromDt x
  | .ldKey x => Laws.RowMatch.ldKey x
  | .ldDt x => Laws.RowMatch.ldDt x
  | .ldSt x => Laws.RowMatch.ldSt x
  | .addIndex x => Laws.RowMatch.addIndex x
  | .ldFont x => Laws.RowMatch.ldFont x
  | .ldBcd x => Laws.RowMatch.ldBcd x
  | .storeRegs x => Laws.RowMatch.storeRegs x
  | .loadRegs x => Laws.RowMatch.loadRegs x

theorem decodeWord_encode {i : Instr} (h : i.wellFormed = true) : decodeWord (encode i) = .ok i := by
  obtain ⟨r, hr, hsel, hbuild⟩ := rowMatch i
  rw [decodeWord_of_selects (List.mem_of_getElem? hr) hsel, hbuild h]

/-- A decoded word goes through the byte decoder with the bytes behind it left over. -/
theorem decodeBytes_of_decodeWord {w : Word} {i : Instr} (h : decodeWord w = .ok i) (rest : List Byte) :
    decodeBytes (highByte w :: lowByte w :: rest) = .ok (i, rest) := by
  simp only [decodeBytes, wordOfBytes_high_low, h]

/-- Settles O1: the instruction's own row is the one that decodes its word. -/
theorem decodeOfEncodeGivesTheInstruction : Obligations.DecodeOfEncodeGivesTheInstruction :=
  fun _ h => ⟨decodeWord_encode h, decodeBytes_of_decodeWord (decodeWord_encode h)⟩

/-- Settles O6: each is one computation of the decoder. -/
theorem sampleWordsDecode : Obligations.SampleWordsDecode := ⟨rfl, rfl, rfl, rfl, rfl, rfl, rfl⟩

/-! ### One row a word (R75) -/

theorem decodeTable_nodup : decodeTable.Nodup :=
  decodeTable_pairwise.imp fun differ e => differ (by rw [e])

/-- Settles O4: two rows that select one word are the same row, and no row stands in the table twice. -/
theorem noWordMatchesTwoRows : Obligations.NoWordMatchesTwoRows := by
  intro w j k r q hj hk hr hq
  obtain rfl : r = q := decodeTable_row_unique (List.mem_of_getElem? hj) (List.mem_of_getElem? hk) hr hq
  obtain ⟨hlt, -⟩ := List.getElem?_eq_some_iff.mp hj
  exact (List.getElem?_inj hlt decodeTable_nodup).mp (hj.trans hk.symm)

/-! ### The words with no row (R77) -/

theorem decodeWord_eq_unknown_iff (w : Word) :
    decodeWord w = .error (.unknown w) ↔ ∀ r ∈ decodeTable, w &&& r.mask ≠ r.value := by
  refine ⟨fun h r hr hw => ?_, fun h => decodeWord_of_selects_none fun r hr hw => h r hr (DecodeRow.selects_iff.mp hw)⟩
  rw [decodeWord_of_selects hr (DecodeRow.selects_iff.mpr hw)] at h
  cases h

/-- A mask of the first digit and the k lowest bits, by arithmetic. -/
theorem toNat_and_of_mask {w m : Word} (k : Nat) (hk : k ≤ 12) (hm : m.toNat = 15 * 4096 + (2 ^ k - 1)) :
    (w &&& m).toNat = w.toNat / 4096 * 4096 + w.toNat % 2 ^ k := by
  have hle : 2 ^ k ≤ 2 ^ 12 := Nat.pow_le_pow_right (by omega) hk
  have hpos : 0 < 2 ^ k := Nat.two_pow_pos k
  have digit : (w &&& m).toNat / 2 ^ 12 = w.toNat / 4096 := by
    rw [BitVec.toNat_and, Nat.and_div_two_pow, show m.toNat / 2 ^ 12 = 2 ^ 4 - 1 by omega,
      Nat.and_two_pow_sub_one_eq_mod]
    have := w.isLt
    omega
  have rest : (w &&& m).toNat % 2 ^ 12 = w.toNat % 2 ^ k := by
    rw [BitVec.toNat_and, Nat.and_mod_two_pow, show m.toNat % 2 ^ 12 = 2 ^ k - 1 by omega,
      Nat.and_two_pow_sub_one_eq_mod, Nat.mod_mod_of_dvd _ (Nat.pow_dvd_pow 2 hk)]
  omega

/-- What a row with such a mask selects: the first digit and the k lowest bits of its value. -/
theorem and_eq_iff_of_mask {m : Word} (k : Nat) (hk : k ≤ 12) (hm : m.toNat = 15 * 4096 + (2 ^ k - 1)) (w v : Word) :
    w &&& m = v ↔ w.toNat / 4096 = v.toNat / 4096 ∧ w.toNat % 2 ^ k = v.toNat % 4096 := by
  have hle : 2 ^ k ≤ 2 ^ 12 := Nat.pow_le_pow_right (by omega) hk
  have hlt : w.toNat % 2 ^ k < 2 ^ k := Nat.mod_lt _ (Nat.two_pow_pos k)
  rw [← BitVec.toNat_inj, toNat_and_of_mask k hk hm]
  omega

/-- Settles O5: a row selects by the first digit and by none, four, eight or all of the other bits; for each first digit
the words that its rows leave are those listed. -/
theorem unknownWordsAreTheSixListedGroups : Obligations.UnknownWordsAreTheSixListedGroups := by
  intro w
  have hlt : w.toNat / 4096 < 16 := by have := w.isLt; omega
  rw [decodeWord_eq_unknown_iff]
  simp only [decodeTable, decodeRowsControl, decodeRowsLogic, decodeRowsMiddle, decodeRowsTimersMemory,
    List.cons_append, List.nil_append, List.forall_mem_cons, List.not_mem_nil, false_implies, implies_true, and_true]
  simp only [ne_eq, and_eq_iff_of_mask (m := 0xF000) 0 (by omega) rfl, and_eq_iff_of_mask (m := 0xF00F) 4 (by omega) rfl,
    and_eq_iff_of_mask (m := 0xF0FF) 8 (by omega) rfl, and_eq_iff_of_mask (m := 0xFFFF) 12 (by omega) rfl,
    BitVec.reduceToNat, Nat.reduceDiv, Nat.reduceMod, Nat.reducePow, Nat.mod_one, and_true, List.mem_cons,
    List.not_mem_nil, or_false]
  generalize hd : w.toNat / 4096 = d at hlt ⊢
  interval_cases d <;> simp <;> omega

end Sys2Proof
end

section
/-! Frames: each update of the state extends a set of changed parts by the part it writes, so the frame of an instruction
is read off the updates that its meaning is made of. -/

namespace Sys2Proof.Machine

/-- An outcome has one next state. -/
theorem next_unique {o : Host.Outcome State Fault Refusal} {s t : State} (hs : o = .next s) (ht : o = .next t) : s = t :=
  Host.Outcome.next.inj (hs.symm.trans ht)

variable {P : Part → Prop} {s t : State}

theorem ChangesOnly.refl (s : State) : ChangesOnly P s s := by
  intro p _
  cases p <;> rfl

/-- A frame stays one when a further change keeps every part outside it. -/
theorem ChangesOnly.of_kept {u : State} (h : ChangesOnly P s t) (hk : ∀ p, ¬ P p → Part.kept t u p) : ChangesOnly P s u := by
  intro p hp
  have hst := h p hp
  have htu := hk p hp
  cases p <;> exact Eq.trans htu hst

theorem ChangesOnly.setReg {r : Reg} {b : Byte} (h : ChangesOnly P s t) (hr : P (.reg r)) :
    ChangesOnly P s (t.setReg r b) := by
  refine h.of_kept fun p hp => ?_
  cases p with
  | reg q => rw [Part.kept, State.setReg_reg, if_neg (fun e : r = q => hp (e ▸ hr))]
  | _ => rfl

theorem ChangesOnly.setIndex {w : Word} (h : ChangesOnly P s t) (hi : P .index) : ChangesOnly P s (t.setIndex w) := by
  refine h.of_kept fun p hp => ?_
  cases p with
  | index => exact absurd hi hp
  | _ => rfl

theorem ChangesOnly.setPc {w : Word} (h : ChangesOnly P s t) (hpc : P .pc) : ChangesOnly P s (t.setPc w) := by
  refine h.of_kept fun p hp => ?_
  cases p with
  | pc => exact absurd hpc hp
  | _ => rfl

theorem ChangesOnly.advance (h : ChangesOnly P s t) (hpc : P .pc) : ChangesOnly P s t.advance := h.setPc hpc

theorem ChangesOnly.skipIf {c : Bool} (h : ChangesOnly P s t) (hpc : P .pc) : ChangesOnly P s (t.skipIf c) := h.setPc hpc

theorem ChangesOnly.setDt {b : Byte} (h : ChangesOnly P s t) (hdt : P .dt) : ChangesOnly P s (t.setDt b) := by
  refine h.of_kept fun p hp => ?_
  cases p with
  | dt => exact absurd hdt hp
  | _ => rfl

theorem ChangesOnly.setSt {b : Byte} (h : ChangesOnly P s t) (hst : P .st) : ChangesOnly P s (t.setSt b) := by
  refine h.of_kept fun p hp => ?_
  cases p with
  | st => exact absurd hst hp
  | _ => rfl

theorem ChangesOnly.setKey {b : Byte} (h : ChangesOnly P s t) (hk : P .key) : ChangesOnly P s (t.setKey b) := by
  refine h.of_kept fun p hp => ?_
  cases p with
  | key => exact absurd hk hp
  | _ => rfl

theorem ChangesOnly.setWaitKey {r : Option Reg} (h : ChangesOnly P s t) (hw : P .waitKey) :
    ChangesOnly P s (t.setWaitKey r) := by
  refine h.of_kept fun p hp => ?_
  cases p with
  | waitKey => exact absurd hw hp
  | _ => rfl

theorem ChangesOnly.useFree (h : ChangesOnly P s t) (hf : P .free) : ChangesOnly P s t.useFree := by
  refine h.of_kept fun p hp => ?_
  cases p with
  | free => exact absurd hf hp
  | _ => rfl

theorem ChangesOnly.setDisp {d : Display} (h : ChangesOnly P s t) (hd : ∀ xx yy, P (.cell xx yy)) :
    ChangesOnly P s (t.setDisp d) := by
  refine h.of_kept fun p hp => ?_
  cases p with
  | cell xx yy => exact absurd (hd xx yy) hp
  | _ => rfl

/-- Another RAM may differ only at the addresses in the frame. -/
theorem ChangesOnly.setRam {m : Memory} (h : ChangesOnly P s t) (hm : ∀ a, ¬ P (.ram a) → m.read a = t.readByte a) :
    ChangesOnly P s (t.setRam m) := by
  refine h.of_kept fun p hp => ?_
  cases p with
  | ram a => exact hm a hp
  | _ => rfl

theorem ChangesOnly.setRegs {bs : List Byte} (h : ChangesOnly P s t) (hr : ∀ r : Reg, r.val < bs.length → P (.reg r)) :
    ChangesOnly P s (t.setRegs 0 bs) := by
  refine h.of_kept fun p hp => ?_
  cases p with
  | reg q => rw [Part.kept, State.setRegs_reg, if_neg (fun e => hp (hr q (by omega)))]
  | stackEntry j => simp only [Part.kept, State.setRegs_stack]
  | _ => simp only [Part.kept, State.setRegs_i, State.setRegs_pc, State.setRegs_sp, State.setRegs_dt, State.setRegs_st,
      State.setRegs_key, State.setRegs_waitKey, State.setRegs_halted, State.setRegs_record, State.setRegs_readByte,
      State.setRegs_pixel, State.setRegs_free]

theorem ChangesOnly.push {w : Word} {room : t.sp.val < 16} (h : ChangesOnly P s t) (hsp : P .sp)
    (hj : P (.stackEntry ⟨t.sp.val, room⟩)) : ChangesOnly P s (t.push w room) := by
  refine h.of_kept fun p hp => ?_
  cases p with
  | sp => exact absurd hsp hp
  | stackEntry j =>
    have hne : t.sp.val ≠ j.val := fun e => hp ((Fin.ext e : (⟨t.sp.val, room⟩ : Fin 16) = j) ▸ hj)
    exact Vector.getElem_set_ne room j.isLt hne
  | _ => rfl

theorem ChangesOnly.pop (h : ChangesOnly P s t) (hsp : P .sp) : ChangesOnly P s t.pop := by
  refine h.of_kept fun p hp => ?_
  cases p with
  | sp => exact absurd hsp hp
  | _ => rfl

theorem ChangesOnly.flagThenReg {f : Bool} {d : Reg} {g : State → Byte} (h : ChangesOnly P s t) (hf : P (.reg VF))
    (hd : P (.reg d)) : ChangesOnly P s (t.flagThenReg f d g) := (h.setReg hf).setReg hd

end Sys2Proof.Machine
end

section
/-! The flag writers of spec 41 and `ADD I,Vx` (spec 44 R161): VF receives the flag, then the result is computed from the
registers as they then stand (R112). -/

namespace Sys2Proof.Machine

/-! ### Flags as numbers -/

theorem flagByte_toNat (f : Bool) : (flagByte f).toNat = if f then 1 else 0 := by cases f <;> rfl

theorem flagByte_zero_or_one (f : Bool) : flagByte f = 0 ∨ flagByte f = 1 := by cases f <;> simp [flagByte]

theorem flagByte_eq_one_iff (f : Bool) : flagByte f = 1 ↔ f = true := by cases f <;> simp [flagByte]

/-- The bit shifted out at the right is the remainder by 2. -/
theorem flagByte_shiftOutRight_toNat (b : Byte) : (flagByte (shiftOutRight b)).toNat = b.toNat % 2 := by
  rw [flagByte_toNat, shiftOutRight, BitVec.getLsbD, Nat.testBit_zero]
  rcases Nat.mod_two_eq_zero_or_one b.toNat with h | h <;> simp [h]

/-- The bit shifted out at the left is the quotient by 128. -/
theorem flagByte_shiftOutLeft_toNat (b : Byte) : (flagByte (shiftOutLeft b)).toNat = b.toNat / 128 := by
  have hb := b.isLt
  rw [flagByte_toNat, shiftOutLeft, BitVec.getLsbD, Nat.testBit_eq_decide_div_mod_eq]
  simp only [decide_eq_true_eq]
  split <;> omega

/-! ### Differences and sums as numbers -/

theorem toNat_sub_byte (a b : Byte) : (a - b).toNat = (256 + a.toNat - b.toNat) % 256 := by
  have hb := b.isLt
  rw [BitVec.toNat_sub]
  omega

theorem indexSum_toNat (i : Word) (b : Byte) : (indexSum i b).toNat = (i.toNat + b.toNat) % 65536 := by
  rw [indexSum, BitVec.toNat_add, BitVec.toNat_setWidth_of_le (by omega)]

/-! ### What the registers hold after the flag and then the result are written -/

theorem State.reg_setReg_self (s : State) (r : Reg) (b : Byte) : (s.setReg r b).reg r = b := by
  rw [State.setReg_reg, if_pos rfl]

theorem State.reg_setReg_of_ne (s : State) {r q : Reg} (b : Byte) (h : q ≠ r) : (s.setReg r b).reg q = s.reg q := by
  rw [State.setReg_reg, if_neg h.symm]

theorem State.reg_dest_flagThenReg (s : State) (f : Bool) (d : Reg) (g : State → Byte) :
    (s.flagThenReg f d g).advance.reg d = g (s.setReg VF (flagByte f)) := by
  rw [State.advance_reg, State.flagThenReg_reg, if_pos rfl]

theorem State.reg_VF_flagThenReg (s : State) (f : Bool) {d : Reg} (g : State → Byte) (h : d ≠ VF) :
    (s.flagThenReg f d g).advance.reg VF = flagByte f := by
  rw [State.advance_reg, State.flagThenReg_reg, if_neg h, if_pos rfl]

theorem PcAndRegs.pc {rs : List Reg} : PcAndRegs rs .pc := .inl rfl

theorem PcAndRegs.reg {rs : List Reg} {r : Reg} (h : r ∈ rs) : PcAndRegs rs (.reg r) := .inr ⟨r, h, rfl⟩

/-- What an operation on Vx and Vy leaves in Vx after its flag `f` went to VF, for each way that VF is an operand. -/
theorem State.flagThenReg_answers (s : State) (x y : Reg) (f : Bool) (op : Byte → Byte → Byte) :
    ∃ t, Host.Outcome.next (s.flagThenReg f x (fun u => op (u.reg x) (u.reg y))).advance =
        (.next t : Host.Outcome State Fault Refusal) ∧
      t.pc = s.pc + 2 ∧ ChangesOnly (PcAndRegs [x, VF]) s t ∧
      (x ≠ VF → y ≠ VF → t.reg x = op (s.reg x) (s.reg y) ∧ t.reg VF = flagByte f) ∧
      (x = VF → y ≠ VF → t.reg VF = op (flagByte f) (s.reg y)) ∧
      (x ≠ VF → y = VF → t.reg x = op (s.reg x) (flagByte f) ∧ t.reg VF = flagByte f) ∧
      (x = VF → y = VF → t.reg VF = op (flagByte f) (flagByte f)) := by
  refine ⟨_, rfl, rfl, .advance (.flagThenReg (.refl s) (PcAndRegs.reg (by simp)) (PcAndRegs.reg (by simp))) PcAndRegs.pc,
    fun hx hy => ⟨?_, s.reg_VF_flagThenReg f _ hx⟩, ?_, fun hx hy => ⟨?_, s.reg_VF_flagThenReg f _ hx⟩, ?_⟩
  · rw [State.reg_dest_flagThenReg, State.reg_setReg_of_ne _ _ hx, State.reg_setReg_of_ne _ _ hy]
  · rintro rfl hy
    rw [State.reg_dest_flagThenReg, State.reg_setReg_self, State.reg_setReg_of_ne _ _ hy]
  · rw [hy, State.reg_dest_flagThenReg, State.reg_setReg_of_ne _ _ hx, State.reg_setReg_self]
  · rintro rfl rfl
    rw [State.reg_dest_flagThenReg, State.reg_setReg_self]

end Sys2Proof.Machine

namespace Sys2Proof

open Sys2Proof.Machine

/-- Settles O23: the carry is in VF when the sum reads its operands, and the sum is written last. -/
theorem addRegSetsCarryThenSum : Obligations.AddRegSetsCarryThenSum := by
  rintro x y s a b c rfl rfl hc
  have flag : (flagByte (addCarry (s.reg x) (s.reg y))).toNat = c := by
    rw [flagByte_toNat, hc, addCarry]
    simp only [decide_eq_true_eq, gt_iff_lt]
  have hc2 : c < 2 := by split at hc <;> omega
  obtain ⟨t, ht, hpc, hframe, neither, dest, source, both⟩ :=
    s.flagThenReg_answers x y (addCarry (s.reg x) (s.reg y)) (· + ·)
  refine ⟨t, ht, hpc, hframe, fun hx hy => ?_, fun hx hy => ?_, fun hx hy => ?_, fun hx hy => ?_⟩
  · rw [(neither hx hy).1, (neither hx hy).2, BitVec.toNat_add, flag]
    exact ⟨rfl, rfl⟩
  · rw [dest hx hy, BitVec.toNat_add, flag]
  · rw [(source hx hy).1, (source hx hy).2, BitVec.toNat_add, flag]
    exact ⟨rfl, rfl⟩
  · rw [both hx hy, BitVec.toNat_add, flag]
    omega

/-- Settles O24: as for the sum, with the not-borrow. -/
theorem subRegSetsNotBorrowThenDifference : Obligations.SubRegSetsNotBorrowThenDifference := by
  rintro x y s a b f rfl rfl hf
  have flag : (flagByte (notBorrow (s.reg x) (s.reg y))).toNat = f := by
    rw [flagByte_toNat, hf, notBorrow]
    simp only [decide_eq_true_eq, ge_iff_le]
  obtain ⟨t, ht, hpc, hframe, neither, dest, source, both⟩ :=
    s.flagThenReg_answers x y (notBorrow (s.reg x) (s.reg y)) (· - ·)
  refine ⟨t, ht, hpc, hframe, fun hx hy => ?_, fun hx hy => ?_, fun hx hy => ?_, fun hx hy => ?_⟩
  · rw [(neither hx hy).1, (neither hx hy).2, toNat_sub_byte, flag]
    exact ⟨rfl, rfl⟩
  · rw [dest hx hy, toNat_sub_byte, flag]
  · rw [(source hx hy).1, (source hx hy).2, toNat_sub_byte, flag]
    exact ⟨rfl, rfl⟩
  · rw [both hx hy, BitVec.sub_self]
    rfl

/-- Settles O25: as `SUB` with the operands exchanged and Vy as the destination. -/
theorem subnRegWritesVy : Obligations.SubnRegWritesVy := by
  intro x y s a b f ha hb hf
  obtain ⟨t, ht, hpc, hframe, neither, dest, source, both⟩ :=
    subRegSetsNotBorrowThenDifference y x s b a f hb ha hf
  exact ⟨t, ht, hpc, hframe, fun hx hy => neither hy hx, fun hx hy => dest hy hx, fun hx hy => source hy hx,
    fun hx hy => both hy hx⟩

/-- Settles O26: the bit shifted out is in VF when the shift reads Vy. -/
theorem shrRegShiftsVyRight : Obligations.ShrRegShiftsVyRight := by
  rintro x y s b rfl
  have flag := flagByte_shiftOutRight_toNat (s.reg y)
  have half : ∀ c : Byte, (c >>> 1).toNat = c.toNat / 2 := fun c => by
    rw [BitVec.toNat_ushiftRight, Nat.shiftRight_eq_div_pow, pow_one]
  obtain ⟨t, ht, hpc, hframe, neither, dest, source, both⟩ :=
    s.flagThenReg_answers x y (shiftOutRight (s.reg y)) (fun _ c => c >>> 1)
  refine ⟨t, ht, hpc, hframe, fun hx hy => ?_, fun hx hy => ?_, fun hx hy => ?_, fun hx hy => ?_⟩
  · rw [(neither hx hy).1, (neither hx hy).2, half, flag]
    exact ⟨rfl, rfl⟩
  · rw [dest hx hy, half]
  · rw [(source hx hy).1, (source hx hy).2, half, flag]
    omega
  · rw [both hx hy, half, flag]
    omega

/-- Settles O27: as the right shift, with bit 7. -/
theorem shlRegShiftsVyLeft : Obligations.ShlRegShiftsVyLeft := by
  rintro x y s b rfl
  have flag := flagByte_shiftOutLeft_toNat (s.reg y)
  have double : ∀ c : Byte, (c <<< 1).toNat = 2 * c.toNat % 256 := fun c => by
    rw [BitVec.toNat_shiftLeft, Nat.shiftLeft_eq, pow_one, mul_comm]
  have hlt := (s.reg y).isLt
  obtain ⟨t, ht, hpc, hframe, neither, dest, source, both⟩ :=
    s.flagThenReg_answers x y (shiftOutLeft (s.reg y)) (fun _ c => c <<< 1)
  refine ⟨t, ht, hpc, hframe, fun hx hy => ?_, fun hx hy => ?_, fun hx hy => ?_, fun hx hy => ?_⟩
  · rw [(neither hx hy).1, (neither hx hy).2, double, flag]
    exact ⟨rfl, rfl⟩
  · rw [dest hx hy, double]
  · rw [(source hx hy).1, (source hx hy).2, double, flag]
    omega
  · rw [both hx hy, double, flag]
    omega

/-- Settles O45: the carry is in VF when the sum reads Vx, and I is not read again. -/
theorem addIndexSetsCarryThenSum : Obligations.AddIndexSetsCarryThenSum := by
  intro x s c hc
  have flag : (flagByte (indexCarry s.i (s.reg x))).toNat = c := by
    rw [flagByte_toNat, hc, indexCarry]
    simp only [decide_eq_true_eq, gt_iff_lt]
  refine ⟨_, rfl, ?_, fun hx => ?_, ?_, rfl,
    .advance (.setIndex (.setReg (.refl s) (by simp)) (by simp)) (by simp)⟩
  · rw [State.advance_reg, State.setIndex_reg, State.reg_setReg_self, flag]
  · rw [State.advance_i, State.setIndex_i, State.setReg_i, State.reg_setReg_of_ne _ _ hx, indexSum_toNat]
  · rintro rfl
    rw [State.advance_i, State.setIndex_i, State.setReg_i, State.reg_setReg_self, indexSum_toNat, flag]

end Sys2Proof
end

section
/-! Control flow (spec 42, and the key skips of spec 43 section 3): where a jump goes, both ways of a skip, and the stack
across a call and its return. -/

namespace Sys2Proof.Machine

/-! ### Jumps -/

theorem jumpTarget_toNat (nnn : Addr) (b : Byte) : (jumpTarget nnn b).toNat = nnn.toNat + b.toNat := by
  have hn := nnn.isLt
  have hb := b.isLt
  rw [jumpTarget, BitVec.toNat_add, BitVec.toNat_setWidth_of_le (by omega), BitVec.toNat_setWidth_of_le (by omega)]
  omega

theorem jumpTarget_zero (nnn : Addr) : jumpTarget nnn 0 = addrWord nnn := BitVec.add_zero _

theorem State.changesOnly_setPc (s : State) (w : Word) : ChangesOnly (Among [.pc]) s (s.setPc w) :=
  .setPc (.refl s) (by simp)

/-- The step at a PC of 4095 or more halts at the fetch (R59). -/
theorem step_of_pc_ge {s : State} (h : s.running) (hpc : 4095 ≤ s.pc.toNat) :
    ∃ u, step s = .next u ∧ u.halted = true ∧ u.record.cause = .fetchOutOfRange :=
  ⟨_, step_of_fetch_none h (s.fetch_eq_none_iff.mpr hpc), rfl, rfl⟩

/-! ### Skips -/

/-- What every skip answers, for the condition `c` of its test. -/
theorem skipIf_answers (s : State) (c : Bool) :
    ∃ t, Host.Outcome.next (s.skipIf c) = (.next t : Host.Outcome State Fault Refusal) ∧
      (c = true → t.pc = s.pc + 4) ∧ (c = false → t.pc = s.pc + 2) ∧ ChangesOnly (Among [.pc]) s t :=
  ⟨_, rfl, fun h => by rw [State.skipIf_pc, if_pos h], fun h => by rw [State.skipIf_pc, h]; rfl,
    .skipIf (.refl s) (by simp)⟩

/-- A skip on equal bytes. -/
theorem skipIf_beq_answers (s : State) (a b : Byte) :
    ∃ t, Host.Outcome.next (s.skipIf (a == b)) = (.next t : Host.Outcome State Fault Refusal) ∧
      (a = b → t.pc = s.pc + 4) ∧ (a ≠ b → t.pc = s.pc + 2) ∧ ChangesOnly (Among [.pc]) s t := by
  simpa only [beq_iff_eq, beq_eq_false_iff_ne] using skipIf_answers s (a == b)

/-- A skip on different bytes. -/
theorem skipIf_bne_answers (s : State) (a b : Byte) :
    ∃ t, Host.Outcome.next (s.skipIf (a != b)) = (.next t : Host.Outcome State Fault Refusal) ∧
      (a ≠ b → t.pc = s.pc + 4) ∧ (a = b → t.pc = s.pc + 2) ∧ ChangesOnly (Among [.pc]) s t := by
  simpa only [bne_iff_ne, bne_eq_false_iff_eq] using skipIf_answers s (a != b)

/-! ### Faults -/

theorem faultsWith_of_faultOf {i : Instr} {s : State} {f : Fault} (h : faultOf i s = some f) : FaultsWith i s f :=
  ⟨_, exec_of_faultOf h, rfl, rfl⟩

/-! ### The stack -/

theorem exec_call_ok (nnn : Addr) {s : State} (room : s.sp.val < 16) :
    exec (.call nnn) s = .next ((s.push (s.pc + 2) room).setPc (addrWord nnn)) := execCall_ok room

theorem exec_ret_ok {s : State} (live : 0 < s.sp.val) : exec .ret s = .next (s.pop.setPc (s.top live)) := execRet_ok live

theorem State.top_eq {s : State} (live : 0 < s.sp.val) {j : Nat} (h : j < 16) (hj : j + 1 = s.sp.val) :
    s.top live = s.stack[j] := by
  simp only [State.top, ← hj, Nat.add_sub_cancel]

end Sys2Proof.Machine

namespace Sys2Proof

open Sys2Proof.Machine

/-- Settles O29: nnn = 0xFFF is past the last address that can be fetched from. -/
theorem jumpGoesToTheAddress : Obligations.JumpGoesToTheAddress := by
  refine ⟨rowDecodes_nnn_of_mem .jp (by simp [decodeTable, decodeRowsControl]), fun nnn s =>
    ⟨s.setPc (addrWord nnn), rfl, addrWord_toNat nnn, s.changesOnly_setPc _, ?_⟩⟩
  rintro hrun rfl
  exact step_of_pc_ge hrun (Nat.le_refl 4095)

/-- Settles O30: the sum of 12 and 8 bits fits PC; with V0 = 0 it is nnn. -/
theorem jumpV0AddsV0WithoutWrap : Obligations.JumpV0AddsV0WithoutWrap := by
  refine ⟨rowDecodes_nnn_of_mem .jpV0 (by simp [decodeTable, decodeRowsMiddle]), fun nnn s =>
    ⟨s.setPc (jumpTarget nnn (s.reg V0)), rfl, jumpTarget_toNat _ _, ?_, s.changesOnly_setPc _, fun h0 => ?_,
      fun hrun hpc => step_of_pc_ge hrun hpc⟩⟩
  · have hn := nnn.isLt
    have hb := (s.reg V0).isLt
    rw [State.setPc_pc, jumpTarget_toNat]
    omega
  · rw [show s.reg V0 = 0 from h0, jumpTarget_zero]
    rfl

/-- Settles O34: the conditions are those of the two skips. -/
theorem byteSkipsCompareVxWithTheByte : Obligations.ByteSkipsCompareVxWithTheByte :=
  fun x nn s => ⟨skipIf_beq_answers s (s.reg x) nn, skipIf_bne_answers s (s.reg x) nn⟩

/-- Settles O35: the conditions are those of the two skips. -/
theorem regSkipsCompareVxWithVy : Obligations.RegSkipsCompareVxWithVy :=
  fun x y s => ⟨skipIf_beq_answers s (s.reg x) (s.reg y), skipIf_bne_answers s (s.reg x) (s.reg y)⟩

/-- Settles O39: the conditions are those of the two skips. -/
theorem keySkipsCompareVxWithTheLatch : Obligations.KeySkipsCompareVxWithTheLatch :=
  fun x s => ⟨skipIf_beq_answers s (s.reg x) s.key, skipIf_bne_answers s (s.reg x) s.key⟩

/-- Settles O31: the entry written is the one at the old SP. -/
theorem callPushesOrOverflows : Obligations.CallPushesOrOverflows := by
  refine fun nnn s => ⟨fun room => ⟨_, exec_call_ok nnn room, addrWord_toNat nnn, rfl, ?_, ?_⟩,
    fun full => faultsWith_of_faultOf (if_pos full)⟩
  · rintro j h rfl
    rw [State.setPc_stack, State.push_stack, Vector.getElem_set_self]
  · exact .setPc (.push (.refl s) (.inr (.inl rfl)) (.inr (.inr ⟨_, rfl, rfl⟩))) (.inl rfl)

/-- Settles O32: PC is the entry below the old SP. -/
theorem returnPopsOrUnderflows : Obligations.ReturnPopsOrUnderflows := by
  refine fun s => ⟨fun live => ⟨_, exec_ret_ok live, Nat.sub_add_cancel live, fun j h hj => ?_, ?_⟩,
    fun empty => faultsWith_of_faultOf (if_pos empty)⟩
  · rw [State.setPc_pc, State.top_eq live h hj]
  · exact .setPc (.pop (.refl s) (by simp)) (by simp)

/-- Settles O33: the return finds the entry that the call wrote, and the call wrote no entry below it. -/
theorem returnComesBackBehindTheCall : Obligations.ReturnComesBackBehindTheCall := by
  intro nnn s room
  obtain ⟨t, ht, -, hsp, hentry, hcall⟩ := (callPushesOrOverflows nnn s).1 room
  refine ⟨t, ht, fun t' esp estack => ?_⟩
  rw [← esp] at hsp
  obtain ⟨u, hu, husp, hupc, hret⟩ := (returnPopsOrUnderflows t').1 (by omega)
  refine ⟨u, hu, ?_, Fin.ext (by omega), fun j h hj => ?_⟩
  · rw [hupc s.sp.val room hsp.symm, ← hentry s.sp.val room rfl]
    simp only [estack]
  · have below : ∀ k : Fin 16, k.val = s.sp.val → (⟨j, h⟩ : Fin 16) ≠ k := fun k hk e => by
      rw [← e] at hk
      exact absurd hk (Nat.ne_of_lt hj)
    have returned : u.stack[j] = t'.stack[j] := hret (.stackEntry ⟨j, h⟩) (by simp)
    have called : t.stack[j] = s.stack[j] := hcall (.stackEntry ⟨j, h⟩) (by
      rintro (e | e | ⟨k, hk, e⟩)
      · cases e
      · cases e
      · exact below k hk (Part.stackEntry.inj e))
    rw [returned, ← called]
    simp only [estack]

end Sys2Proof
end

section
/-! The timer instructions (spec 43 section 1), `RND` (spec 45), and the instructions that move bytes between RAM and the
registers (spec 44). -/

namespace Sys2Proof.Machine

/-! ### The decimal digits -/

theorem decimalDigit_toNat (b : Byte) (power : Nat) : (decimalDigit b power).toNat = b.toNat / power % 10 := by
  rw [decimalDigit, BitVec.toNat_ofNat]
  omega

/-! ### Moving registers to and from RAM -/

theorem exec_storeRegs_ok {x : Reg} {s : State} (h : x.val = 0 ∨ s.i.toNat + x.val ≤ 4096) :
    exec (.storeRegs x) s = .next (s.setRam (s.ram.load s.i.toNat (s.firstRegs x.val))).advance := execStoreRegs_ok h

theorem exec_loadRegs_ok {x : Reg} {s : State} (h : x.val = 0 ∨ s.i.toNat + x.val ≤ 4096) :
    exec (.loadRegs x) s = .next (s.setRegs 0 (s.sprite x.val)).advance := execLoadRegs_ok h

theorem exec_ldBcd_ok {x : Reg} {s : State} (h : s.i.toNat + 2 < 4096) :
    exec (.ldBcd x) s = .next (s.setRam (((s.ram.write (s.i.toNat + 2) (decimalDigit (s.reg x) 1)).write (s.i.toNat + 1)
      (decimalDigit (s.reg x) 10)).write s.i.toNat (decimalDigit (s.reg x) 100))).advance := execLdBcd_ok h

theorem State.blockFault_of_out_of_range {s : State} {n : Nat} (hn : 0 < n) (h : 4096 < s.i.toNat + n) :
    s.blockFault n = some (.memOutOfRange (max s.i.toNat 4096)) := if_pos ⟨hn, h⟩

/-- The byte that a store of the first n registers leaves k bytes above I. -/
theorem State.read_storeRegs_inside (s : State) {n k : Nat} (hn : n ≤ 16) (hk : k < n) :
    (s.ram.load s.i.toNat (s.firstRegs n)).read (s.i.toNat + k) = s.reg ⟨k, by omega⟩ := by
  rw [s.readByte_storeRegs hn, dif_pos (by omega)]
  congr 1
  exact Fin.ext (Nat.add_sub_cancel_left ..)

/-- A store of the first n registers leaves every other byte. -/
theorem State.read_storeRegs_outside (s : State) {n a : Nat} (hn : n ≤ 16) (ha : ∀ k, k < n → a ≠ s.i.toNat + k) :
    (s.ram.load s.i.toNat (s.firstRegs n)).read a = s.readByte a := by
  rw [s.readByte_storeRegs hn, dif_neg]
  exact fun h => ha (a - s.i.toNat) (by omega) (by omega)

/-- The registers after a load of n bytes from I. -/
theorem State.reg_setRegs_sprite (s : State) (n : Nat) (r : Reg) :
    (s.setRegs 0 (s.sprite n)).reg r = if r.val < n then s.readByte (s.i.toNat + r.val) else s.reg r := by
  rw [State.setRegs_reg, State.sprite_length, Nat.zero_add, Nat.sub_zero]
  by_cases h : r.val < n
  · rw [if_pos ⟨Nat.zero_le _, h⟩, if_pos h, State.sprite_getD s h]
  · rw [if_neg (fun e => h e.2), if_neg h]

/-! ### The frames of the stores -/

theorem State.changesOnly_setRam_load {P : Part → Prop} (s : State) {n : Nat} (hn : n ≤ 16)
    (hP : ∀ k, k < n → P (.ram (s.i.toNat + k))) :
    ChangesOnly P s (s.setRam (s.ram.load s.i.toNat (s.firstRegs n))) :=
  .setRam (.refl s) fun _ ha => s.read_storeRegs_outside hn fun k hk e => ha (e ▸ hP k hk)

/-- Three bytes written from the highest address down leave every other byte. -/
theorem State.changesOnly_setRam_write3 {P : Part → Prop} (s : State) (a : Nat) (u v w : Byte)
    (hP : ∀ k, k < 3 → P (.ram (a + k))) :
    ChangesOnly P s (s.setRam (((s.ram.write (a + 2) u).write (a + 1) v).write a w)) := by
  refine .setRam (.refl s) fun b hb => ?_
  have outside : ∀ k, k < 3 → b ≠ a + k := fun k hk e => hb (e ▸ hP k hk)
  rw [Memory.read_write_other _ _ (show b ≠ a from outside 0 (by omega)), Memory.read_write_other _ _ (outside 1 (by omega)),
    Memory.read_write_other _ _ (outside 2 (by omega))]
  rfl

end Sys2Proof.Machine

namespace Sys2Proof

open Sys2Proof.Machine

/-- Settles O36: each writes the one byte and advances PC. -/
theorem timerInstructionsMoveOneByte : Obligations.TimerInstructionsMoveOneByte := fun x s =>
  ⟨⟨(s.setDt (s.reg x)).advance, rfl, rfl, rfl, .advance (.setDt (.refl s) (by simp)) (by simp)⟩,
    ⟨(s.setReg x s.dt).advance, rfl, s.reg_advance_setReg_self x s.dt, rfl, s.changesOnly_advance_setReg x s.dt⟩,
    ⟨(s.setSt (s.reg x)).advance, rfl, rfl, rfl, .advance (.setSt (.refl s) (by simp)) (by simp)⟩⟩

/-- Settles O52: a bit of the mask that is 0 is 0 in the result, whatever byte is drawn. -/
theorem randomIsOneDrawnByteMasked : Obligations.RandomIsOneDrawnByteMasked := by
  refine ⟨rowDecodes_xnn_of_mem .rnd (by simp [decodeTable, decodeRowsMiddle]), fun x nn s =>
    ⟨(s.useFree.setReg x (s.nextRandom &&& nn)).advance, rfl, State.reg_advance_setReg_self .., fun k hk => ?_, rfl, rfl,
      .advance (.setReg (.useFree (.refl s) (.inr (.inl rfl))) (.inr (.inr rfl))) (.inl rfl)⟩⟩
  rw [State.reg_advance_setReg_self, BitVec.getLsbD_and, hk, Bool.and_false]

/-- Settles O47: the three stores are to different addresses, so each is read back. -/
theorem bcdStoresThreeDigits : Obligations.BcdStoresThreeDigits := by
  refine fun x s => ⟨fun h => ⟨_, exec_ldBcd_ok (by omega), ?_, ?_, ?_, rfl, ?_⟩, fun h => faultsWith_of_faultOf (if_pos h)⟩
  · have hlt := (s.reg x).isLt
    rw [State.advance_readByte, State.setRam_readByte, Memory.read_write_self, decimalDigit_toNat]
    omega
  · rw [State.advance_readByte, State.setRam_readByte, Memory.read_write_other _ _ (by omega), Memory.read_write_self,
      decimalDigit_toNat]
  · rw [State.advance_readByte, State.setRam_readByte, Memory.read_write_other _ _ (by omega),
      Memory.read_write_other _ _ (by omega), Memory.read_write_self, decimalDigit_toNat, Nat.div_one]
  · refine .advance (s.changesOnly_setRam_write3 _ _ _ _ fun k hk => ?_) (by simp)
    interval_cases k <;> simp

/-- Settles O48: the store is the load of the register bytes from I up. -/
theorem storeRegsStoresTheFirstX : Obligations.StoreRegsStoresTheFirstX := by
  refine fun x s => ⟨fun h => ⟨_, exec_storeRegs_ok h, fun r hr => ?_, rfl, ?_⟩,
    fun hn h => faultsWith_of_faultOf (State.blockFault_of_out_of_range hn h)⟩
  · exact s.read_storeRegs_inside (by omega) hr
  · exact .advance (s.changesOnly_setRam_load (by omega) fun k hk => .inr ⟨k, hk, rfl⟩) (.inl rfl)

/-- Settles O49: the bytes loaded are those of a sprite at I. -/
theorem loadRegsLoadsTheFirstX : Obligations.LoadRegsLoadsTheFirstX := by
  refine fun x s => ⟨fun h => ⟨_, exec_loadRegs_ok h, fun r hr => ?_, ?_, ?_⟩,
    fun hn h => faultsWith_of_faultOf (State.blockFault_of_out_of_range hn h)⟩
  · rw [State.advance_reg, State.reg_setRegs_sprite, if_pos hr]
  · rw [State.advance_pc, State.setRegs_pc]
  · exact .advance (.setRegs (.refl s) fun r hr => .inr ⟨r, by simpa using hr, rfl⟩) (.inl rfl)

/-- Settles O50: the loaded bytes are the stored ones. -/
theorem storedRegsLoadBack : Obligations.StoredRegsLoadBack := by
  intro x s h
  obtain ⟨t, ht, hstored, -, hframe⟩ := (storeRegsStoresTheFirstX x s).1 (.inr h)
  have index : t.i = s.i := hframe .index (by simp)
  refine ⟨t, ht, fun t' hi hram => ⟨_, exec_loadRegs_ok (.inr (by rw [hi, index]; exact h)), fun r => ?_⟩⟩
  rw [State.advance_reg, State.reg_setRegs_sprite]
  split
  · rw [← hstored r ‹_›, hi, index, State.readByte, hram, State.readByte]
  · rfl

/-- Settles O51: with I = pc + 2 the first two bytes stored are those fetched next. -/
theorem storeIsSeenByTheNextFetch : Obligations.StoreIsSeenByTheNextFetch := by
  intro x s hi h hx
  obtain ⟨t, ht, hstored, hpc, -⟩ := (storeRegsStoresTheFirstX x s).1 (.inr h)
  have pc : t.pc.toNat = s.i.toNat := by
    rw [hpc, hi, BitVec.toNat_add]
    have two : (2 : Word).toNat = 2 := rfl
    omega
  have high : t.readByte t.pc.toNat = s.reg 0 := pc ▸ hstored 0 (by omega)
  have low : t.readByte (t.pc.toNat + 1) = s.reg 1 := pc ▸ hstored 1 (by omega)
  refine ⟨t, _, ht, if_pos (show t.pc.toNat + 1 < 4096 by omega), ?_⟩
  rw [wordOfBytes_toNat, high, low]

end Sys2Proof
end

section
/-! `DRW` (spec 46 sections 2 and 3): the cells after an in-range draw and its collision, by cells and by sprite bits. -/

namespace Sys2Proof.Machine

/-! ### The state after a draw in range -/

/-- The state after `DRW Vx,Vy,n` in range (R187). -/
def State.drawn (s : State) (x y : Reg) (n : Nat) : State :=
  let d := draw (s.sprite n) (s.reg x).toNat (s.reg y).toNat s.disp
  ((s.setDisp d.1).setReg VF (flagByte d.2)).advance

theorem exec_drw_ok (x y : Reg) {n : Nat} {s : State} (h : n = 0 ∨ s.i.toNat + n ≤ 4096) :
    exec (.drw x y n) s = .next (s.drawn x y n) := execDrw_ok x y h

theorem State.changesOnly_drawn (s : State) (x y : Reg) (n : Nat) :
    ChangesOnly (fun p => p = .pc ∨ p = .reg VF ∨ ∃ xx yy, p = .cell xx yy) s (s.drawn x y n) :=
  .advance (.setReg (.setDisp (.refl s) fun xx yy => .inr (.inr ⟨xx, yy, rfl⟩)) (.inr (.inl rfl))) (.inl rfl)

theorem State.reg_VF_drawn (s : State) (x y : Reg) (n : Nat) : (s.drawn x y n).reg VF =
    flagByte (draw (s.sprite n) (s.reg x).toNat (s.reg y).toNat s.disp).2 :=
  State.reg_advance_setReg_self ..

theorem State.reg_drawn_of_ne (s : State) (x y : Reg) (n : Nat) {r : Reg} (h : r ≠ VF) :
    (s.drawn x y n).reg r = s.reg r :=
  s.changesOnly_drawn x y n (.reg r) (by simp [h])

theorem State.sprite_drawn (s : State) (x y : Reg) (n : Nat) : (s.drawn x y n).sprite n = s.sprite n := rfl

theorem State.reg_VF_drawn_zero_or_one (s : State) (x y : Reg) (n : Nat) :
    (s.drawn x y n).reg VF = 0 ∨ (s.drawn x y n).reg VF = 1 := by
  rw [State.reg_VF_drawn]
  exact flagByte_zero_or_one _

/-- The collision by cells (R187). -/
theorem State.reg_VF_drawn_eq_one_iff (s : State) (x y : Reg) (n : Nat) :
    (s.drawn x y n).reg VF = 1 ↔ ∃ xx yy, s.pixel xx yy = true ∧
      covers (s.sprite n) (s.reg x).toNat (s.reg y).toNat xx yy = true := by
  rw [State.reg_VF_drawn, flagByte_eq_one_iff, draw_collision_iff]
  rfl

/-! ### The cells -/

theorem State.pixel_drawn (s : State) (x y : Reg) (n : Nat) {xx yy : Nat} (hx : xx < 64) (hy : yy < 32) :
    (s.drawn x y n).pixel xx yy =
      (s.pixel xx yy ^^ covers (s.sprite n) (s.reg x).toNat (s.reg y).toNat xx yy) :=
  pixelOf_draw _ _ _ _ _ _ ⟨hx, hy⟩

theorem State.pixel_outside (s : State) {xx yy : Nat} (h : ¬ (xx < 64 ∧ yy < 32)) : s.pixel xx yy = false :=
  pixelOf_outside _ h

/-- Only a cell of the display can be on. -/
theorem State.inside_of_pixel {s : State} {xx yy : Nat} (h : s.pixel xx yy = true) : xx < 64 ∧ yy < 32 := by
  by_contra hout
  rw [s.pixel_outside hout] at h
  cases h

/-- A cell under no bit of 1 keeps its value. -/
theorem State.pixel_drawn_of_not_covers (s : State) (x y : Reg) (n : Nat) {xx yy : Nat}
    (h : covers (s.sprite n) (s.reg x).toNat (s.reg y).toNat xx yy = false) :
    (s.drawn x y n).pixel xx yy = s.pixel xx yy := by
  by_cases hin : xx < 64 ∧ yy < 32
  · rw [s.pixel_drawn x y n hin.1 hin.2, h, Bool.xor_false]
  · rw [State.pixel_outside _ hin, State.pixel_outside _ hin]

/-- A lit cell under a bit of 1 goes off. -/
theorem State.pixel_drawn_of_covers (s : State) (x y : Reg) (n : Nat) {xx yy : Nat} (hp : s.pixel xx yy = true)
    (h : covers (s.sprite n) (s.reg x).toNat (s.reg y).toNat xx yy = true) : (s.drawn x y n).pixel xx yy = false := by
  obtain ⟨hx, hy⟩ := State.inside_of_pixel hp
  rw [s.pixel_drawn x y n hx hy, hp, h]
  rfl

/-! ### The bits of a sprite -/

/-- The box a sprite lies in. -/
theorem box_of_covers {sprite : List Byte} {ox oy xx yy : Nat} (h : covers sprite ox oy xx yy = true) :
    ox ≤ xx ∧ xx < ox + 8 ∧ oy ≤ yy ∧ yy < oy + sprite.length := by
  rw [covers, Bool.and_eq_true, decide_eq_true_eq] at h
  exact h.1

/-- The sprite at I has a bit of 1 over a cell iff the cell is the target of a pair (r, c) whose bit is 1. -/
theorem State.covers_sprite_iff (s : State) (n ox oy xx yy : Nat) :
    covers (s.sprite n) ox oy xx yy = true ↔ ∃ r c, r < n ∧ c < 8 ∧ xx = ox + c ∧ yy = oy + r ∧
      (s.readByte (s.i.toNat + r)).getLsbD (7 - c) = true := by
  rw [covers, Bool.and_eq_true, decide_eq_true_eq, State.sprite_length]
  constructor
  · rintro ⟨⟨hx, hx8, hy, hyn⟩, hbit⟩
    rw [s.sprite_getD (by omega)] at hbit
    exact ⟨yy - oy, xx - ox, by omega, by omega, by omega, by omega, hbit⟩
  · rintro ⟨r, c, hr, hc, rfl, rfl, hbit⟩
    refine ⟨by omega, ?_⟩
    rw [Nat.add_sub_cancel_left, Nat.add_sub_cancel_left, s.sprite_getD hr]
    exact hbit

/-! ### The second draw -/

/-- Where the first draw left the coordinates, the same draw again covers the same cells. -/
theorem State.pixel_drawn_drawn (s : State) (x y : Reg) (n : Nat) (hx : (s.drawn x y n).reg x = s.reg x)
    (hy : (s.drawn x y n).reg y = s.reg y) (xx yy : Nat) :
    ((s.drawn x y n).drawn x y n).pixel xx yy = s.pixel xx yy := by
  by_cases hin : xx < 64 ∧ yy < 32
  · rw [State.pixel_drawn _ x y n hin.1 hin.2, s.sprite_drawn, hx, hy, s.pixel_drawn x y n hin.1 hin.2, Bool.xor_assoc,
      Bool.xor_self, Bool.xor_false]
  · rw [State.pixel_outside _ hin, State.pixel_outside _ hin]

end Sys2Proof.Machine

namespace Sys2Proof

open Sys2Proof.Machine

/-- Settles O54: the cells and the collision of the blit, on the sprite bytes at I. -/
theorem drawXorsTheSprite : Obligations.DrawXorsTheSprite := fun x y n s =>
  ⟨fun h => ⟨_, exec_drw_ok x y h, fun _ _ => s.pixel_drawn x y n, s.reg_VF_drawn_zero_or_one x y n,
    s.reg_VF_drawn_eq_one_iff x y n, rfl, s.changesOnly_drawn x y n⟩,
    fun hn h => faultsWith_of_faultOf (State.blockFault_of_out_of_range hn h)⟩

/-- Settles O55: a cell goes off exactly when it was on under a bit of 1, and the bits of 1 are those of the pairs. -/
theorem collisionMeansALitCellWentOff : Obligations.CollisionMeansALitCellWentOff := by
  intro x y n s t h ht
  obtain rfl : s.drawn x y n = t := next_unique (exec_drw_ok x y h) ht
  refine ⟨s.reg_VF_drawn_zero_or_one x y n, ?_, fun r c hr hc hx hy hbit hp => ?_, ?_⟩
  · rw [s.reg_VF_drawn_eq_one_iff]
    constructor
    · rintro ⟨xx, yy, hp, hcov⟩
      obtain ⟨hx, hy⟩ := State.inside_of_pixel hp
      obtain ⟨r, c, hr, hc, rfl, rfl, hbit⟩ := (s.covers_sprite_iff ..).mp hcov
      exact ⟨r, c, hr, hc, hx, hy, hbit, hp⟩
    · rintro ⟨r, c, hr, hc, -, -, hbit, hp⟩
      exact ⟨_, _, hp, (s.covers_sprite_iff ..).mpr ⟨r, c, hr, hc, rfl, rfl, hbit⟩⟩
  · exact s.pixel_drawn_of_covers x y n hp ((s.covers_sprite_iff ..).mpr ⟨r, c, hr, hc, rfl, rfl, hbit⟩)
  · rw [s.reg_VF_drawn_eq_one_iff]
    constructor
    · rintro ⟨xx, yy, hp, hcov⟩
      exact ⟨xx, yy, hp, s.pixel_drawn_of_covers x y n hp hcov⟩
    · rintro ⟨xx, yy, hp, hoff⟩
      refine ⟨xx, yy, hp, eq_true_of_ne_false fun hcov => ?_⟩
      rw [s.pixel_drawn_of_not_covers x y n hcov, hp] at hoff
      cases hoff

/-- Settles O56: a sprite covers only cells of its box, and a box that starts outside the display has no cell in it. -/
theorem clippedPixelsAreDropped : Obligations.ClippedPixelsAreDropped := by
  intro x y n s h
  have kept : ∀ xx yy, ¬ ((s.reg x).toNat ≤ xx ∧ xx < (s.reg x).toNat + 8 ∧ (s.reg y).toNat ≤ yy ∧
      yy < (s.reg y).toNat + n) → (s.drawn x y n).pixel xx yy = s.pixel xx yy := fun xx yy hout =>
    s.pixel_drawn_of_not_covers x y n (eq_false_of_ne_true fun hcov => hout (by simpa using box_of_covers hcov))
  refine ⟨_, exec_drw_ok x y h, fun hout => ⟨?_, fun xx yy => ?_⟩, fun xx yy hout => kept xx yy (by omega)⟩
  · refine (s.reg_VF_drawn_zero_or_one x y n).resolve_right fun hone => ?_
    obtain ⟨xx, yy, hp, hcov⟩ := (s.reg_VF_drawn_eq_one_iff x y n).mp hone
    obtain ⟨hx, hy⟩ := State.inside_of_pixel hp
    have hbox := box_of_covers hcov
    omega
  · by_cases hin : xx < 64 ∧ yy < 32
    · exact kept xx yy (by omega)
    · rw [State.pixel_outside _ hin, State.pixel_outside _ hin]

/-- Settles O57: the two draws cover the same cells, so each cell is flipped twice or never; a cell the second draw finds
on under a bit of 1 was off before the first. -/
theorem drawingTwiceRestoresTheDisplay : Obligations.DrawingTwiceRestoresTheDisplay := by
  intro x y n s h
  refine ⟨_, exec_drw_ok x y h, fun hx hy => ⟨s.reg_drawn_of_ne x y n hx, s.reg_drawn_of_ne x y n hy⟩, fun hx hy =>
    ⟨_, exec_drw_ok x y h, s.pixel_drawn_drawn x y n hx hy, ?_⟩⟩
  rw [State.reg_VF_drawn_eq_one_iff, s.sprite_drawn, hx, hy]
  refine exists_congr fun xx => exists_congr fun yy => ?_
  by_cases hcov : covers (s.sprite n) (s.reg x).toNat (s.reg y).toNat xx yy = true
  · by_cases hin : xx < 64 ∧ yy < 32
    · rw [s.pixel_drawn x y n hin.1 hin.2, hcov]
      cases s.pixel xx yy <;> simp
    · rw [State.pixel_outside _ hin]
      simp
  · rw [s.pixel_drawn_of_not_covers x y n (eq_false_of_ne_true hcov)]
    cases s.pixel xx yy <;> simp [hcov]

end Sys2Proof
end

section
/-! All 34 instructions: what each that completes may write (spec 10 R37), where PC is after it (spec 40 R94), and what VF
is after it (spec 10 R21). -/

namespace Sys2Proof.Machine

/-! ### What it takes for no fault to be due -/

theorem room_of_faultOf_call {nnn : Addr} {s : State} (h : faultOf (.call nnn) s = none) : s.sp.val < 16 := by
  by_contra hfull
  rw [faultOf, if_pos (by omega)] at h
  cases h

theorem live_of_faultOf_ret {s : State} (h : faultOf .ret s = none) : 0 < s.sp.val := by
  by_contra hempty
  rw [faultOf, if_pos (by omega)] at h
  cases h

theorem inRange_of_faultOf_ldBcd {x : Reg} {s : State} (h : faultOf (.ldBcd x) s = none) : s.i.toNat + 2 < 4096 := by
  by_contra hout
  rw [faultOf, if_pos (by omega)] at h
  cases h

/-! ### The program counter -/

theorem pc_add_two_toNat {w : Word} (h : w.toNat ≤ 4094) : (w + 2).toNat = w.toNat + 2 := by
  have two : (2 : Word).toNat = 2 := rfl
  rw [BitVec.toNat_add]
  omega

/-- Both ways of a skip, without wrap. -/
theorem State.skipIf_pc_toNat {s : State} (h : s.pc.toNat ≤ 4094) (c : Bool) :
    (s.skipIf c).pc.toNat = s.pc.toNat + if c = true then 4 else 2 := by
  cases c with
  | false => exact pc_add_two_toNat h
  | true =>
    have four : (4 : Word).toNat = 4 := rfl
    rw [State.skipIf_pc, if_pos rfl, if_pos rfl, BitVec.toNat_add]
    omega

theorem State.skipIf_beq_pc_toNat {s : State} (h : s.pc.toNat ≤ 4094) (a b : Byte) :
    (s.skipIf (a == b)).pc.toNat = s.pc.toNat + if a = b then 4 else 2 := by
  simpa only [beq_iff_eq] using State.skipIf_pc_toNat h (a == b)

theorem State.skipIf_bne_pc_toNat {s : State} (h : s.pc.toNat ≤ 4094) (a b : Byte) :
    (s.skipIf (a != b)).pc.toNat = s.pc.toNat + if a ≠ b then 4 else 2 := by
  simpa only [bne_iff_ne] using State.skipIf_pc_toNat h (a != b)

end Sys2Proof.Machine

namespace Sys2Proof

open Sys2Proof.Machine

/-- Settles O12: the frame of an instruction is that of the updates its meaning is made of. -/
theorem instructionsWriteOnlyTheirOwnState : Obligations.InstructionsWriteOnlyTheirOwnState := by
  intro i s h
  cases i
  case jp | jpV0 => exact ⟨_, rfl, .setPc (.refl s) (.inl rfl)⟩
  case seByte | sneByte | seReg | sneReg | skp | sknp => exact ⟨_, rfl, .skipIf (.refl s) (.inl rfl)⟩
  case ldByte | addByte | ldReg | orReg | andReg | xorReg | ldFromDt =>
    exact ⟨_, rfl, .advance (.setReg (.refl s) (.inr rfl)) (.inl rfl)⟩
  case addReg | subReg | shrReg | shlReg | subnReg =>
    exact ⟨_, rfl, .advance (.flagThenReg (.refl s) (.inr (.inr rfl)) (.inr (.inl rfl))) (.inl rfl)⟩
  case ldIndex | ldFont => exact ⟨_, rfl, .advance (.setIndex (.refl s) (.inr rfl)) (.inl rfl)⟩
  case cls => exact ⟨_, rfl, .advance (.setDisp (.refl s) fun xx yy => .inr ⟨xx, yy, rfl⟩) (.inl rfl)⟩
  case addIndex =>
    exact ⟨_, rfl, .advance (.setIndex (.setReg (.refl s) (.inr (.inr rfl))) (.inr (.inl rfl))) (.inl rfl)⟩
  case rnd => exact ⟨_, rfl, .advance (.setReg (.useFree (.refl s) (.inr (.inr rfl))) (.inr (.inl rfl))) (.inl rfl)⟩
  case ldKey => exact ⟨_, rfl, .advance (.setWaitKey (.refl s) (.inr rfl)) (.inl rfl)⟩
  case ldDt => exact ⟨_, rfl, .advance (.setDt (.refl s) (.inr rfl)) (.inl rfl)⟩
  case ldSt => exact ⟨_, rfl, .advance (.setSt (.refl s) (.inr rfl)) (.inl rfl)⟩
  case ret => exact ⟨_, exec_ret_ok (live_of_faultOf_ret h), .setPc (.pop (.refl s) (.inr rfl)) (.inl rfl)⟩
  case call nnn =>
    exact ⟨_, exec_call_ok nnn (room_of_faultOf_call h),
      .setPc (.push (.refl s) (.inr (.inl rfl)) (.inr (.inr ⟨_, rfl, rfl⟩))) (.inl rfl)⟩
  case drw x y n => exact ⟨_, exec_drw_ok x y ((s.blockFault_none_iff n).mp h), s.changesOnly_drawn x y n⟩
  case ldBcd =>
    exact ⟨_, exec_ldBcd_ok (inRange_of_faultOf_ldBcd h),
      .advance (s.changesOnly_setRam_write3 _ _ _ _ fun k hk => .inr ⟨k, hk, rfl⟩) (.inl rfl)⟩
  case storeRegs x =>
    obtain ⟨t, ht, -, -, hframe⟩ := (storeRegsStoresTheFirstX x s).1 ((s.blockFault_none_iff _).mp h)
    exact ⟨t, ht, hframe⟩
  case loadRegs x =>
    obtain ⟨t, ht, -, -, hframe⟩ := (loadRegsLoadsTheFirstX x s).1 ((s.blockFault_none_iff _).mp h)
    exact ⟨t, ht, hframe⟩

/-- Settles O14: each class by its update of PC. -/
theorem pcFollowsTheFourClasses : Obligations.PcFollowsTheFourClasses := by
  intro i s hpc h
  have advanced := pc_add_two_toNat hpc
  cases i
  case jp nnn => exact ⟨_, rfl, addrWord_toNat nnn⟩
  case jpV0 nnn => exact ⟨_, rfl, jumpTarget_toNat nnn (s.reg V0)⟩
  case call nnn => exact ⟨_, exec_call_ok nnn (room_of_faultOf_call h), addrWord_toNat nnn⟩
  case ret => exact ⟨_, exec_ret_ok (live_of_faultOf_ret h), fun j hj e => State.top_eq (live_of_faultOf_ret h) hj e⟩
  case seByte | seReg | skp => exact ⟨_, rfl, State.skipIf_beq_pc_toNat hpc ..⟩
  case sneByte | sneReg | sknp => exact ⟨_, rfl, State.skipIf_bne_pc_toNat hpc ..⟩
  case drw x y n => exact ⟨_, exec_drw_ok x y ((s.blockFault_none_iff n).mp h), advanced⟩
  case ldBcd => exact ⟨_, exec_ldBcd_ok (inRange_of_faultOf_ldBcd h), advanced⟩
  case storeRegs => exact ⟨_, exec_storeRegs_ok ((s.blockFault_none_iff _).mp h), advanced⟩
  case loadRegs =>
    refine ⟨_, exec_loadRegs_ok ((s.blockFault_none_iff _).mp h), ?_⟩
    rw [State.advance_pc, State.setRegs_pc, advanced]
  all_goals exact ⟨_, rfl, advanced⟩

/-- Settles O28: a flag writer leaves its flag in VF when the result goes elsewhere; the other instructions have VF in
their frame only as their destination. -/
theorem vfIsAFlagAfterTheSevenFlagWriters : Obligations.VfIsAFlagAfterTheSevenFlagWriters := by
  intro i s h
  obtain ⟨t, ht, hframe⟩ := instructionsWriteOnlyTheirOwnState i s h
  refine ⟨t, ht, ?_⟩
  have kept := hframe (.reg VF)
  cases i
  case addReg | subReg | shrReg | shlReg | subnReg =>
    intro hd
    obtain rfl := Host.Outcome.next.inj ht
    rw [State.reg_VF_flagThenReg _ _ _ hd]
    exact flagByte_zero_or_one _
  case addIndex =>
    obtain rfl := Host.Outcome.next.inj ht
    rw [State.advance_reg, State.setIndex_reg, State.reg_setReg_self]
    exact flagByte_zero_or_one _
  case drw x y n =>
    obtain rfl := next_unique (exec_drw_ok x y ((s.blockFault_none_iff n).mp h)) ht
    exact s.reg_VF_drawn_zero_or_one x y n
  case ldByte | addByte | ldReg | orReg | andReg | xorReg | rnd | ldFromDt =>
    intro hd
    exact kept (by simp [hd.symm])
  case loadRegs x =>
    refine kept ?_
    rintro (e | ⟨r, hr, e⟩)
    · cases e
    · cases e
      exact absurd hr (Nat.not_lt.mpr (Nat.le_of_lt_succ x.isLt))
  all_goals exact kept (by simp)

end Sys2Proof
end

section
/-! The step (spec 40 R90 to R96, spec 60): the fetch, the timers, and a step's two ways, an instruction that completes or a
fault that is due. -/

namespace Sys2Proof.Machine

/-! ### The fetch (R51, R90) -/

theorem State.fetch_eq_some_of_toNat {s : State} {w : Word} (hpc : s.pc.toNat ≤ 4094)
    (hw : w.toNat = (s.readByte s.pc.toNat).toNat * 256 + (s.readByte (s.pc.toNat + 1)).toNat) : s.fetch = some w := by
  have word : wordOfBytes (s.readByte s.pc.toNat) (s.readByte (s.pc.toNat + 1)) = w :=
    BitVec.eq_of_toNat_eq ((wordOfBytes_toNat _ _).trans hw.symm)
  rw [State.fetch, if_pos (show s.pc.toNat + 1 < 4096 by omega), word]

theorem State.pc_le_of_fetch {s : State} {w : Word} (h : s.fetch = some w) : s.pc.toNat ≤ 4094 := by
  by_contra hpc
  rw [s.fetch_eq_none_iff.mpr (by omega)] at h
  cases h

/-! ### The two ways of a step -/

/-- A step with no fault due runs an instruction that completes. -/
theorem exists_instr_of_faultDue_none {s : State} (h : s.faultDue = none) :
    ∃ w i, s.fetch = some w ∧ decodeWord w = .ok i ∧ faultOf i s = none := by
  unfold State.faultDue at h
  cases hf : s.fetch with
  | none => simp only [hf] at h; cases h
  | some w =>
    simp only [hf] at h
    cases hd : decodeWord w with
    | error e => simp only [hd] at h; cases h
    | ok i =>
      simp only [hd] at h
      exact ⟨w, i, rfl, hd, h⟩

/-- A step with a fault due takes it, at the PC of the step and with the word fetched. -/
theorem step_of_faultDue {s : State} {f : Fault} (hrun : s.running) (h : s.faultDue = some f) :
    ∃ w u, step s = .next (raise f w u) ∧ u.pc = s.pc ∧ ∀ w', s.fetch = some w' → w = w' := by
  unfold State.faultDue at h
  cases hf : s.fetch with
  | none =>
    simp only [hf, Option.some.injEq] at h
    subst h
    exact ⟨_, _, step_of_fetch_none hrun hf, rfl, fun w' e => by cases e⟩
  | some w =>
    simp only [hf] at h
    refine ⟨w, s.tickTimers, ?_, rfl, fun w' e => Option.some.inj e⟩
    cases hd : decodeWord w with
    | error e =>
      simp only [hd, Option.some.injEq] at h
      subst h
      exact step_of_unknown hrun hf hd
    | ok i =>
      simp only [hd] at h
      obtain ⟨-, henc, -⟩ := encodeOfDecodeGivesTheWord w i hd
      rw [step_of_decoded hrun hf hd, exec_of_faultOf ((faultOf_tickTimers i s).trans h), henc]

/-- A step with no fault due leaves the engine running. -/
theorem step_kept_of_faultDue_none {s : State} (hrun : s.running) (h : s.faultDue = none) :
    ∃ t, step s = .next t ∧ t.halted = s.halted := by
  obtain ⟨w, i, hf, hd, hi⟩ := exists_instr_of_faultDue_none h
  obtain ⟨t, ht, hframe⟩ := instructionsWriteOnlyTheirOwnState i s.tickTimers ((faultOf_tickTimers i s).trans hi)
  exact ⟨t, (step_of_decoded hrun hf hd).trans ht, hframe .halted (by cases i <;> simp)⟩

/-! ### The sound timer -/

theorem faultDue_setSt (s : State) (b : Byte) : (s.setSt b).faultDue = s.faultDue := by
  have same : ∀ i, faultOf i (s.setSt b) = faultOf i s := fun i => by cases i <;> rfl
  simp only [State.faultDue, same]
  rfl

theorem State.setRegs_setSt (s : State) (b : Byte) (r : Nat) (bs : List Byte) :
    (s.setSt b).setRegs r bs = (s.setRegs r bs).setSt b := by
  induction bs generalizing s r with
  | nil => rfl
  | cons c bs ih =>
    rw [State.setRegs, State.setRegs, ← ih]
    split <;> rfl

/-- An instruction that completes does the same from another ST, which it leaves there or replaces. -/
theorem exec_setSt {i : Instr} {s : State} (h : faultOf i s = none) (b : Byte) :
    ∃ t c, exec i s = .next t ∧ exec i (s.setSt b) = .next (t.setSt c) := by
  cases i
  case ldSt => exact ⟨_, _, rfl, rfl⟩
  case call nnn =>
    have room := room_of_faultOf_call h
    exact ⟨_, b, exec_call_ok nnn room, exec_call_ok nnn (s := s.setSt b) room⟩
  case ret =>
    have live := live_of_faultOf_ret h
    exact ⟨_, b, exec_ret_ok live, exec_ret_ok (s := s.setSt b) live⟩
  case drw x y n =>
    have inRange := (s.blockFault_none_iff n).mp h
    exact ⟨_, b, exec_drw_ok x y inRange, exec_drw_ok x y inRange⟩
  case ldBcd x =>
    have inRange := inRange_of_faultOf_ldBcd h
    exact ⟨_, b, exec_ldBcd_ok inRange, exec_ldBcd_ok (s := s.setSt b) inRange⟩
  case storeRegs =>
    have inRange := (s.blockFault_none_iff _).mp h
    exact ⟨_, b, exec_storeRegs_ok inRange, exec_storeRegs_ok inRange⟩
  case loadRegs x =>
    have inRange := (s.blockFault_none_iff _).mp h
    refine ⟨_, b, exec_loadRegs_ok inRange, (exec_loadRegs_ok (s := s.setSt b) inRange).trans ?_⟩
    rw [State.setRegs_setSt]
    rfl
  all_goals exact ⟨_, b, rfl, rfl⟩

end Sys2Proof.Machine

namespace Sys2Proof

open Sys2Proof.Machine

/-- Settles O7: at a PC up to 4094 the fetch answers that word. -/
theorem stepRunsTheDecodedInstruction : Obligations.StepRunsTheDecodedInstruction := by
  intro s w i hrun hpc hw hd
  have fetched := State.fetch_eq_some_of_toNat hpc hw
  refine ⟨?_, step_of_decoded hrun fetched hd⟩
  rw [State.current, fetched, ← hd]

/-- Settles O58: the fetch answers that word, or nothing exactly at a PC of 4095 or more. -/
theorem currentReportsTheWordOrTheFetchFault : Obligations.CurrentReportsTheWordOrTheFetchFault := by
  refine fun s => ⟨fun w hpc hw => ?_, fun hpc => ?_⟩
  · rw [State.current, State.fetch_eq_some_of_toNat hpc hw]
  · rw [State.current, s.fetch_eq_none_iff.mpr hpc]

/-- Settles O10: an instruction completes or its fault is due, and a step of a running engine runs an instruction or
takes the fault that is due. -/
theorem everyStepAnswersANextState : Obligations.EveryStepAnswersANextState := by
  have exec_next : ∀ (i : Instr) (s : State), ∃ t, exec i s = .next t := by
    intro i s
    cases h : faultOf i s with
    | none =>
      obtain ⟨t, ht, -⟩ := instructionsWriteOnlyTheirOwnState i s h
      exact ⟨t, ht⟩
    | some f => exact ⟨_, exec_of_faultOf h⟩
  refine ⟨fun s => ?_, exec_next⟩
  cases hrun : s.halted with
  | true => exact ⟨s, step_of_halted hrun⟩
  | false =>
    cases hdue : s.faultDue with
    | none =>
      obtain ⟨w, i, hf, hd, -⟩ := exists_instr_of_faultDue_none hdue
      rw [step_of_decoded hrun hf hd]
      exact exec_next i _
    | some f =>
      obtain ⟨w, u, hstep, -⟩ := step_of_faultDue hrun hdue
      exact ⟨_, hstep⟩

/-- Settles O11: with no fault due the instruction completes, and no instruction has `halted` in its frame. -/
theorem stepHaltsExactlyOnTheFiveFaults : Obligations.StepHaltsExactlyOnTheFiveFaults := by
  intro s hrun
  cases hdue : s.faultDue with
  | none =>
    obtain ⟨t, hstep, hkept⟩ := step_kept_of_faultDue_none hrun hdue
    exact ⟨t, hstep, hkept.trans hrun⟩
  | some f =>
    obtain ⟨w, u, hstep, hpc, hword⟩ := step_of_faultDue hrun hdue
    exact ⟨_, hstep, rfl, rfl, hpc, hword⟩

/-- Settles O8: the step runs the instruction on the counted timers, which only the timer loads have in their frame. -/
theorem timersCountDownOnceBeforeTheInstruction : Obligations.TimersCountDownOnceBeforeTheInstruction := by
  intro s w i hrun hf hd h
  obtain ⟨t, ht, hframe⟩ := instructionsWriteOnlyTheirOwnState i s.tickTimers ((faultOf_tickTimers i s).trans h)
  refine ⟨t, (step_of_decoded hrun hf hd).trans ht, fun hne => ?_, ?_, fun hne => ?_, ?_, ?_⟩
  · have kept : t.dt = countDown s.dt := hframe .dt (by
      cases i
      case ldDt x => exact absurd rfl (hne x)
      all_goals simp)
    rw [kept, countDown_toNat]
  · rintro x rfl
    obtain rfl := Host.Outcome.next.inj ht
    rfl
  · have kept : t.st = countDown s.st := hframe .st (by
      cases i
      case ldSt x => exact absurd rfl (hne x)
      all_goals simp)
    rw [kept, countDown_toNat]
  · rintro x rfl
    obtain rfl := Host.Outcome.next.inj ht
    rfl
  · rintro x rfl
    obtain rfl := Host.Outcome.next.inj ht
    rw [State.reg_advance_setReg_self, State.tickTimers_dt, countDown_toNat]

/-- Settles O13: ST is in no test for a fault and in no meaning, so both runs take the same way. -/
theorem soundTimerIsNeverRead : Obligations.SoundTimerIsNeverRead := by
  intro s b hrun
  cases hdue : s.faultDue with
  | none =>
    obtain ⟨w, i, hf, hd, h⟩ := exists_instr_of_faultDue_none hdue
    obtain ⟨t, ht, hkept⟩ := step_kept_of_faultDue_none hrun hdue
    obtain ⟨t', c, htick, htick'⟩ := exec_setSt ((faultOf_tickTimers i s).trans h) (countDown b)
    obtain rfl : t = t' := Host.Outcome.next.inj (ht.symm.trans ((step_of_decoded hrun hf hd).trans htick))
    have step' : step { s with st := b } = .next (t.setSt c) :=
      (step_of_decoded (s := { s with st := b }) hrun hf hd).trans htick'
    refine ⟨t, t.setSt c, ht, step', rfl, fun _ => .setSt (.refl t) (by simp), fun hhalt => ?_⟩
    rw [hkept.trans hrun] at hhalt
    cases hhalt
  | some f =>
    have hdue' : State.faultDue { s with st := b } = some f := (faultDue_setSt s b).trans hdue
    obtain ⟨w, u, hstep, hpc, -⟩ := step_of_faultDue hrun hdue
    obtain ⟨w', u', hstep', hpc', -⟩ := step_of_faultDue (s := { s with st := b }) hrun hdue'
    exact ⟨_, _, hstep, hstep', rfl, fun hrun' => absurd hrun' (by simp), fun _ => ⟨rfl, hpc'.trans hpc.symm⟩⟩

/-- Settles O37: the first step leaves Vx in DT, and the second counts it down before it is read. -/
theorem delayTimerReadsBackOneLess : Obligations.DelayTimerReadsBackOneLess := by
  intro s x y w w' hrun hf hd
  refine ⟨(s.tickTimers.setDt (s.reg x)).advance, step_of_decoded hrun hf hd, fun hf' hd' => ?_⟩
  refine ⟨_, step_of_decoded (show State.running (s.tickTimers.setDt (s.reg x)).advance from hrun) hf' hd', ?_⟩
  rw [State.reg_advance_setReg_self, State.tickTimers_dt, countDown_toNat]
  rfl

end Sys2Proof
end

section
/-! The host operations (spec 43 section 4, spec 70): key events, waiting ticks, a halted engine, and reset. -/

namespace Sys2Proof.Machine

/-- A machine whose step answers the state it started in stays there. -/
theorem run_of_step_self {M : Host.Core} {s : M.State} (h : M.step s = .next s) (n : Nat) : M.run n s = .next s := by
  induction n with
  | zero => rfl
  | succ n ih =>
    rw [Host.Core.run, h]
    exact ih

/-! ### Key events -/

theorem State.press_of_halted {s : State} {k : Byte} (hk : k.toNat ≤ 15) (h : s.halted = true) :
    s.press k = .next s := by
  rw [State.press, if_neg (by omega), if_pos h]

theorem State.press_refused (s : State) {k : Byte} (hk : 15 < k.toNat) : s.press k = .refused .keyOutOfRange :=
  if_pos hk

theorem State.releaseKey_of_halted {s : State} (h : s.halted = true) : s.releaseKey = s := if_pos h

theorem State.releaseKey_waitKey (s : State) : s.releaseKey.waitKey = s.waitKey := by
  unfold State.releaseKey
  split <;> rfl

theorem State.iterate_releaseKey_waitKey (s : State) (n : Nat) : (State.releaseKey^[n] s).waitKey = s.waitKey := by
  induction n with
  | zero => rfl
  | succ n ih => rw [Function.iterate_succ_apply', State.releaseKey_waitKey, ih]

theorem State.waitingKey_congr {s t : State} (h : t.waitKey = s.waitKey) : t.waitingKey = s.waitingKey := by
  rw [State.waitingKey_eq, State.waitingKey_eq, h]

/-- The press that answers a wait: what it leaves and what it may write. -/
theorem State.press_answer {s : State} {k : Byte} {r : Reg} (hk : k.toNat ≤ 15) (h : s.running) (hw : s.waitKey = some r) :
    ∃ t, s.press k = .next t ∧ t.key = k ∧ t.reg r = k ∧ t.waitingKey = false ∧
      ChangesOnly (Among [.key, .waitKey, .reg r]) s t := by
  refine ⟨_, State.press_of_waiting hk h hw, rfl, ?_, State.waitingKey_eq _,
    .setWaitKey (.setReg (.setKey (.refl s) (by simp)) (by simp)) (by simp)⟩
  rw [State.setWaitKey_reg, State.reg_setReg_self]

/-! ### Ticks of a waiting engine -/

theorem State.tick_of_waiting {s : State} (hw : s.waitKey.isSome = true) (held : Option Byte) :
    s.tick held = s.keyEvent held := if_pos (s.waitingKey_eq.trans hw)

theorem State.tick_of_step {s t : State} (hw : ¬ s.waitKey.isSome = true) (ht : step s = .next t) (held : Option Byte) :
    s.tick held = t.keyEvent held := by
  rw [State.tick, if_neg (by rwa [State.waitingKey_eq]), ht]

/-- Over any number of ticks with no key a waiting engine keeps all but the key latch. -/
theorem idleTicks_of_waiting {s : State} (hrun : s.running) (hw : s.waitKey.isSome = true) (n : Nat) :
    ∃ t, idleTicks n s = .next t ∧ ChangesOnly (Among [.key]) s t := by
  induction n generalizing s with
  | zero => exact ⟨s, rfl, .refl s⟩
  | succ n ih =>
    have first : s.tick none = .next (s.setKey 0xFF) := by
      rw [State.tick_of_waiting hw, State.keyEvent, State.releaseKey_of_running hrun]
    obtain ⟨t, ht, hframe⟩ := ih (s := s.setKey 0xFF) hrun hw
    refine ⟨t, ?_, .of_kept (.setKey (.refl s) (by simp)) hframe⟩
    rw [idleTicks, first]
    exact ht

/-! ### Reset -/

/-- The font bytes by glyph, as the model's memory holds them before anything is written. -/
theorem fontRows_initialByte : ∀ p ∈ fontRows, ∀ k < p.2.length,
    p.1 < 16 ∧ p.2.length = 5 ∧ Memory.initialByte (0x050 + 5 * p.1 + k) = p.2.getD k 0 := by decide

/-- Outside the font every byte is 0 until something is written. -/
theorem initialByte_outside_font {a : Nat} (h : a < 0x050 ∨ 0x0A0 ≤ a) : Memory.initialByte a = 0 := by
  unfold Memory.initialByte
  split
  · have size : font.length = 80 := rfl
    exact List.getD_eq_default _ _ (by simp only [Config.fontBase] at *; omega)
  · rfl

/-- The state that `reset(rom)` answers (R230). -/
def State.resetTo (s : State) (rom : List Byte) : State :=
  { State.reset with ram := Memory.load [] Config.programBase rom, free := s.free }

theorem State.resetWith_ok (s : State) {rom : List Byte} (h : rom.length ≤ 3584) :
    s.resetWith rom = .next (s.resetTo rom) := if_neg (Nat.not_lt.mpr h)

theorem State.resetWith_refused (s : State) {rom : List Byte} (h : 3584 < rom.length) :
    s.resetWith rom = .refused .romTooLong := if_pos h

theorem State.resetTo_readByte_rom (s : State) (rom : List Byte) {k : Nat} (h : k < rom.length) :
    (s.resetTo rom).readByte (0x200 + k) = rom[k] := by
  refine (Memory.read_load _ _ _ _).trans ?_
  rw [if_pos (show 0x200 ≤ 0x200 + k ∧ 0x200 + k < 0x200 + rom.length by omega),
    show 0x200 + k - Config.programBase = k from Nat.add_sub_cancel_left .., List.getD_eq_getElem _ _ h]

theorem State.resetTo_readByte_outside (s : State) (rom : List Byte) {a : Nat} (h : a < 0x200 ∨ 0x200 + rom.length ≤ a) :
    (s.resetTo rom).readByte a = Memory.initialByte a := by
  refine (Memory.read_load _ _ _ _).trans ?_
  rw [if_neg (show ¬ (0x200 ≤ a ∧ a < 0x200 + rom.length) by omega)]
  rfl

end Sys2Proof.Machine

namespace Sys2Proof

open Sys2Proof.Machine

/-- Settles O9: each operation looks at `halted` first, but reset. -/
theorem onlyResetLeavesTheHaltedState : Obligations.OnlyResetLeavesTheHaltedState :=
  fun s h => ⟨run_of_step_self (M := Sys2Proof.core) (step_of_halted h), fun _ hk => State.press_of_halted hk h,
    State.releaseKey_of_halted h, fun _ hrom => ⟨_, s.resetWith_ok hrom, rfl⟩⟩

/-- Settles O40: the two answers of a legal press, and its refusal. -/
theorem pressWritesTheKeyAndAnswersTheWait : Obligations.PressWritesTheKeyAndAnswersTheWait := fun s _ =>
  ⟨s.press_refused, fun hk hrun hw => ⟨_, State.press_of_idle hk hrun hw, rfl, .setKey (.refl s) (by simp)⟩,
    fun hk hrun _ hw => State.press_answer hk hrun hw⟩

/-- Settles O41: a release writes the key latch and nothing that the wait depends on. -/
theorem releaseClearsOnlyTheKeyLatch : Obligations.ReleaseClearsOnlyTheKeyLatch := by
  refine fun s => ⟨State.releaseKey_of_halted, fun hrun => ?_⟩
  refine ⟨?_, State.waitingKey_congr s.releaseKey_waitKey, ?_, s.iterate_releaseKey_waitKey⟩
  · rw [State.releaseKey_of_running hrun, State.setKey_key]
  · rw [State.releaseKey_of_running hrun]
    exact .setKey (.refl s) (by simp)

/-- Settles O42: only `LD Vx,K` has the wait latch in its frame. -/
theorem waitingKeyHoldsFromLoadKeyToPress : Obligations.WaitingKeyHoldsFromLoadKeyToPress := by
  refine fun s hrun => ⟨fun w i hf hd h => ?_, fun k hk => ?_, State.waitingKey_congr s.releaseKey_waitKey⟩
  · obtain ⟨t, ht, hframe⟩ := instructionsWriteOnlyTheirOwnState i s.tickTimers ((faultOf_tickTimers i s).trans h)
    refine ⟨t, (step_of_decoded hrun hf hd).trans ht, ?_, fun hne => ?_⟩
    · rintro ⟨x, rfl⟩
      obtain rfl := Host.Outcome.next.inj ht
      exact State.waitingKey_eq _
    · have kept : t.waitKey = s.waitKey := hframe .waitKey (by
        cases i
        case ldKey x => exact absurd rfl (hne x)
        all_goals simp)
      exact State.waitingKey_congr kept
  · cases hw : s.waitKey with
    | none => exact ⟨_, State.press_of_idle hk hrun hw, (State.waitingKey_eq _).trans (by rw [State.setKey_waitKey, hw]; rfl)⟩
    | some r => exact ⟨_, State.press_of_waiting hk hrun hw, State.waitingKey_eq _⟩

/-- Settles O43: the idle ticks keep the wait, so the tick with a key is the press that answers it. -/
theorem idleTicksFreezeAWaitingEngine : Obligations.IdleTicksFreezeAWaitingEngine := by
  intro s x n k hrun hw hk
  obtain ⟨t, ht, hframe⟩ := idleTicks_of_waiting hrun (by rw [hw]; rfl) n
  have running : t.running := (hframe .halted (by simp)).trans hrun
  have waiting : t.waitKey = some x := (hframe .waitKey (by simp)).trans hw
  obtain ⟨u, hu, hkey, hreg, hwait, hpress⟩ := State.press_answer hk running waiting
  exact ⟨t, u, ht, hframe, (State.tick_of_waiting (by rw [waiting]; rfl) _).trans hu, hreg, hkey, hwait, hpress⟩

/-- Settles O18: the ROM stands where it was loaded, and every other byte reads as if nothing had been written. -/
theorem resetLoadsTheRomAndClearsTheRest : Obligations.ResetLoadsTheRomAndClearsTheRest := by
  refine fun s rom => ⟨fun h => ?_, s.resetWith_refused⟩
  refine ⟨_, s.resetWith_ok h, State.reset_reg, rfl, rfl, rfl, fun j hj => Vector.getElem_replicate hj, rfl, rfl, rfl, rfl,
    State.waitingKey_eq _, rfl, State.reset_pixel, fun k hk => s.resetTo_readByte_rom rom hk, fun a ha => ?_,
    fun d rows hmem k b hb => ?_⟩
  · rw [s.resetTo_readByte_outside rom (by omega), initialByte_outside_font (by omega)]
  · obtain ⟨hk, rfl⟩ := List.getElem?_eq_some_iff.mp hb
    obtain ⟨hd, hlen, hbyte⟩ := fontRows_initialByte (d, rows) hmem k hk
    dsimp only at hd hlen hbyte
    rw [s.resetTo_readByte_outside rom (by omega), hbyte, List.getD_eq_getElem _ _ hk]

end Sys2Proof
end

section
/-! The invariant (spec 10 R35): it holds after reset, and every step and host operation keeps it. -/

namespace Sys2Proof.Machine

/-! ### Memory -/

/-- An instruction that completes leaves memory in canonical form: the stores are inside RAM. -/
theorem exec_ram_wf {i : Instr} {s t : State} (h : faultOf i s = none) (ht : exec i s = .next t) (hwf : s.ram.wf) :
    t.ram.wf := by
  cases i
  case call nnn =>
    obtain rfl := next_unique (exec_call_ok nnn (room_of_faultOf_call h)) ht
    exact hwf
  case ret =>
    obtain rfl := next_unique (exec_ret_ok (live_of_faultOf_ret h)) ht
    exact hwf
  case drw x y n =>
    obtain rfl := next_unique (exec_drw_ok x y ((s.blockFault_none_iff n).mp h)) ht
    exact hwf
  case loadRegs x =>
    obtain rfl := next_unique (exec_loadRegs_ok ((s.blockFault_none_iff _).mp h)) ht
    rw [State.advance_ram, State.setRegs_ram]
    exact hwf
  case ldBcd x =>
    have inRange := inRange_of_faultOf_ldBcd h
    obtain rfl := next_unique (exec_ldBcd_ok inRange) ht
    have below : ∀ k, k ≤ 2 → s.i.toNat + k < Config.ramSize := fun k hk => show s.i.toNat + k < 4096 by omega
    exact Memory.wf_write (Memory.wf_write (Memory.wf_write hwf (below 2 (by omega)) _) (below 1 (by omega)) _)
      (below 0 (by omega)) _
  case storeRegs x =>
    have inRange := (s.blockFault_none_iff x.val).mp h
    obtain rfl := next_unique (exec_storeRegs_ok inRange) ht
    have len : (s.firstRegs x.val).length = x.val := s.firstRegs_length (by omega)
    rcases inRange with hx | hx
    · have nothing : s.firstRegs x.val = [] := List.eq_nil_of_length_eq_zero (len.trans hx)
      rw [State.advance_ram, State.setRam_ram, nothing]
      exact hwf
    · exact Memory.wf_load hwf _ _ (by rw [len]; exact hx)
  all_goals
    obtain rfl := Host.Outcome.next.inj ht
    exact hwf

/-! ### The program counter -/

/-- From a PC that can be fetched from, and with the live entries bounded, no instruction takes PC past 0x10FE. -/
theorem exec_pc_le {i : Instr} {s t : State} (h : faultOf i s = none) (ht : exec i s = .next t) (hpc : s.pc.toNat ≤ 4094)
    (hlive : ∀ (j : Nat) (h : j < 16), j < s.sp.val → (s.stack[j]).toNat ≤ 4096) : t.pc.toNat ≤ 0x10FE := by
  obtain ⟨t', ht', hclass⟩ := pcFollowsTheFourClasses i s hpc h
  obtain rfl := next_unique ht' ht
  cases i
  case jp nnn | call nnn =>
    have := nnn.isLt
    dsimp only at hclass
    omega
  case jpV0 nnn =>
    have := nnn.isLt
    have := (s.reg V0).isLt
    dsimp only at hclass
    omega
  case ret =>
    have hsp := live_of_faultOf_ret h
    have top := hclass (s.sp.val - 1) (by omega) (by omega)
    have := hlive (s.sp.val - 1) (by omega) (by omega)
    rw [top]
    omega
  case seByte | sneByte | seReg | sneReg | skp | sknp =>
    dsimp only at hclass
    split at hclass <;> omega
  all_goals
    dsimp only at hclass
    omega

/-! ### The live entries -/

/-- A call adds the entry `pc + 2`, a return drops one, and no other instruction has SP or an entry in its frame. -/
theorem exec_live_le {i : Instr} {s t : State} (h : faultOf i s = none) (ht : exec i s = .next t) (hpc : s.pc.toNat ≤ 4094)
    (hlive : ∀ (j : Nat) (h : j < 16), j < s.sp.val → (s.stack[j]).toNat ≤ 4096) (j : Nat) (hj : j < 16)
    (hsp : j < t.sp.val) : (t.stack[j]).toNat ≤ 4096 := by
  obtain ⟨t', ht', hframe⟩ := instructionsWriteOnlyTheirOwnState i s h
  obtain rfl := next_unique ht' ht
  have entry := hframe (.stackEntry ⟨j, hj⟩)
  have pointer := hframe .sp
  cases i
  case call nnn =>
    obtain rfl := next_unique (exec_call_ok nnn (room_of_faultOf_call h)) ht
    have hle : j < s.sp.val + 1 := hsp
    rw [State.setPc_stack, State.push_stack, Vector.getElem_set]
    split
    · rw [pc_add_two_toNat hpc]
      omega
    · exact hlive j hj (by omega)
  case ret =>
    obtain rfl := next_unique (exec_ret_ok (live_of_faultOf_ret h)) ht
    have hlt : j < s.sp.val - 1 := hsp
    exact hlive j hj (by omega)
  all_goals
    have same : t'.stack[j] = s.stack[j] := entry (by simp)
    rw [same]
    exact hlive j hj ((pointer (by simp) : t'.sp = s.sp) ▸ hsp)

/-! ### One instruction, one step -/

/-- The invariant is kept by an instruction that completes. -/
theorem State.Inv.exec {i : Instr} {s t : State} (hinv : s.Inv) (hrun : s.running) (hpc : s.pc.toNat ≤ 4094)
    (h : faultOf i s = none) (ht : Machine.exec i s = .next t) : t.Inv := by
  obtain ⟨-, hkey, hlive⟩ := hinv.while_running hrun
  obtain ⟨t', ht', hframe⟩ := instructionsWriteOnlyTheirOwnState i s h
  obtain rfl := next_unique ht' ht
  have kept : t'.key = s.key := hframe .key (by cases i <;> simp)
  exact ⟨exec_ram_wf h ht hinv.ram_wf, fun _ =>
    ⟨exec_pc_le h ht hpc hlive, kept ▸ hkey, exec_live_le h ht hpc hlive⟩⟩

/-- A fault leaves the invariant: memory is canonical and nothing runs. -/
theorem raise_inv (f : Fault) (w : Word) (s : State) : (raise f w s).Inv :=
  ⟨raise_ram_wf f w s, fun hrun => absurd hrun (by simp)⟩

/-- The invariant depends on no other part of the state than these. -/
theorem State.Inv.of_same {s t : State} (h : s.Inv) (hram : t.ram = s.ram) (hhalted : t.halted = s.halted)
    (hpc : t.pc = s.pc) (hstack : t.stack = s.stack) (hsp : t.sp = s.sp) (hkey : t.running → keyLegal t.key) : t.Inv := by
  refine ⟨hram ▸ h.ram_wf, fun hrun => ?_⟩
  obtain ⟨hpc', -, hlive⟩ := h.while_running (hhalted.symm.trans hrun)
  exact ⟨hpc ▸ hpc', hkey hrun, by simpa only [hstack, hsp] using hlive⟩

theorem State.Inv.tickTimers {s : State} (h : s.Inv) : s.tickTimers.Inv :=
  h.of_same rfl rfl rfl rfl rfl fun hrun => (h.while_running hrun).key_legal

end Sys2Proof.Machine

namespace Sys2Proof

open Sys2Proof.Machine

/-- Settles O15: memory is empty, PC is 0x200, no key is held and no entry is live. -/
theorem resetMeetsTheInvariant : Obligations.ResetMeetsTheInvariant :=
  ⟨Memory.wf_nil, fun _ => ⟨by decide, .inl rfl, fun _ _ h => absurd h (Nat.not_lt_zero _)⟩⟩

/-- Settles O16: a halted engine stays as it is; a running one runs an instruction that completes or takes a fault. -/
theorem everyStepKeepsTheInvariant : Obligations.EveryStepKeepsTheInvariant := by
  intro s t hinv ht
  cases hrun : s.halted with
  | true =>
    obtain rfl := next_unique (step_of_halted hrun) ht
    exact hinv
  | false =>
    cases hdue : s.faultDue with
    | none =>
      obtain ⟨w, i, hf, hd, h⟩ := exists_instr_of_faultDue_none hdue
      exact hinv.tickTimers.exec hrun (State.pc_le_of_fetch hf) ((faultOf_tickTimers i s).trans h)
        ((step_of_decoded hrun hf hd).symm.trans ht)
    | some f =>
      obtain ⟨w, u, hstep, -⟩ := step_of_faultDue hrun hdue
      obtain rfl := next_unique hstep ht
      exact raise_inv f w u

theorem press_keeps_inv {s t : State} {k : Byte} (hinv : s.Inv) (ht : s.press k = .next t) : t.Inv := by
  by_cases hk : 15 < k.toNat
  · rw [s.press_refused hk] at ht
    cases ht
  have legal : keyLegal k := .inr (by omega)
  cases hrun : s.halted with
  | true =>
    obtain rfl := next_unique (State.press_of_halted (by omega) hrun) ht
    exact hinv
  | false =>
    cases hw : s.waitKey with
    | none =>
      obtain rfl := next_unique (State.press_of_idle (by omega) hrun hw) ht
      exact hinv.of_same rfl rfl rfl rfl rfl fun _ => legal
    | some r =>
      obtain rfl := next_unique (State.press_of_waiting (by omega) hrun hw) ht
      exact hinv.of_same rfl rfl rfl rfl rfl fun _ => legal

theorem releaseKey_keeps_inv {s : State} (hinv : s.Inv) : s.releaseKey.Inv := by
  cases hrun : s.halted with
  | true => rwa [State.releaseKey_of_halted hrun]
  | false =>
    rw [State.releaseKey_of_running hrun]
    exact hinv.of_same rfl rfl rfl rfl rfl fun _ => .inl rfl

theorem keyEvent_keeps_inv {s t : State} {held : Option Byte} (hinv : s.Inv) (ht : s.keyEvent held = .next t) : t.Inv := by
  cases held with
  | some k => exact press_keeps_inv hinv ht
  | none =>
    obtain rfl := Host.Outcome.next.inj ht
    exact releaseKey_keeps_inv hinv

theorem inv_of_resetWith {s t : State} {rom : List Byte} (ht : s.resetWith rom = .next t) : t.Inv := by
  by_cases hrom : rom.length ≤ 3584
  · obtain rfl := next_unique (s.resetWith_ok hrom) ht
    have reset := resetMeetsTheInvariant.while_running rfl
    exact ⟨Memory.wf_load Memory.wf_nil _ _ (show 512 + rom.length ≤ 4096 by omega),
      fun _ => ⟨reset.pc_le, reset.key_legal, reset.live_le⟩⟩
  · rw [s.resetWith_refused (by omega)] at ht
    cases ht

theorem tick_keeps_inv {s t : State} {held : Option Byte} (hinv : s.Inv) (ht : s.tick held = .next t) : t.Inv := by
  by_cases hw : s.waitKey.isSome = true
  · rw [State.tick_of_waiting hw] at ht
    exact keyEvent_keeps_inv hinv ht
  · obtain ⟨u, hu⟩ := everyStepAnswersANextState.1 s
    rw [State.tick_of_step hw hu] at ht
    exact keyEvent_keeps_inv (everyStepKeepsTheInvariant s u hinv hu) ht

/-- Settles O17: each operation writes a legal key, loads inside RAM, or is a step and then a key event. -/
theorem hostOperationsKeepTheInvariant : Obligations.HostOperationsKeepTheInvariant := fun _ hinv =>
  ⟨fun _ _ => press_keeps_inv hinv, releaseKey_keeps_inv hinv, fun _ _ => inv_of_resetWith,
    fun _ _ => tick_keeps_inv hinv⟩

end Sys2Proof
end
